-- ==== Sys2Proof/Word.lean ====
section
/-! DEFINITION. The bit vectors the block is made of: 32-bit registers and command words
(10_state.md section 3, 30_encoding.md R60), 16-bit address, length and index fields (R27 to R30),
8-bit bytes of BUF and the 8-bit accumulator (R22, R26), 4-bit hex digit values (42_hex.md R110).
All values are unsigned (00_scope.md R6). -/

namespace Sys2Proof

/-- A register, or a command word. -/
abbrev Word := BitVec 32

/-- An address, length or chain-index field of a register. -/
abbrev Half := BitVec 16

/-- A byte of BUF, the accumulator, an opcode, an immediate. -/
abbrev Byte := BitVec 8

/-- The value of one hex digit. -/
abbrev Nibble := BitVec 4

end Sys2Proof
end

