-- ==== Sys2Proof/Syntax.lean ====
section
/-! DEFINITION. What the block and its host can say: the commands (30_encoding.md R64), the host operations
(20_memory.md R40), the inputs the block can meet (R40 and the reset input of 70_reset_and_hazards.md R150),
and the lines of a host program (R67 to R69). -/

namespace Sys2Proof

/-- The block's commands, one constructor per row of the opcode map (R64). Every operand but CRC.B's
immediate is implicit (R63). -/
inductive Instr where
  /-- `CRC.CLR` (R83) -/
  | crcClr
  /-- `CRC.B imm8` (R84) -/
  | crcB (imm8 : Byte)
  /-- `CRC.BUF` (R85) -/
  | crcBuf
  /-- `STUFF` (R90) -/
  | stuff
  /-- `UNSTUFF` (R94) -/
  | unstuff
  /-- `UNSTUFF.C` (R95) -/
  | unstuffC
  /-- `HEX.ENC` (R112) -/
  | hexEnc
  /-- `HEX.DEC` (R113) -/
  | hexDec
  deriving DecidableEq, Repr

/-- The eight registers (10_state.md section 3). -/
inductive RegName where
  | param | cmd | status | crc | src | dst | len | next
  deriving DecidableEq, Repr

/-- The host's four operations (R40). Offsets and addresses are the numbers the host gives, in range or
not: an access outside the map is a host access error (R41, R42). -/
inductive HostOp where
  | regRead (off : Nat)
  | regWrite (off : Nat) (v : Word)
  | bufRead (a : Nat)
  | bufWrite (a : Nat) (v : Byte)
  deriving DecidableEq, Repr

/-- What reaches the block from outside: a host access (R40), or its hardware reset input asserted (R150). -/
inductive Input where
  | access (op : HostOp)
  | reset
  deriving DecidableEq, Repr

/-- An operand as it is written in a program line: "decimal, `0x` hexadecimal or a quoted character" (R67). -/
inductive Literal where
  | decimal (n : Nat)
  | hex (n : Nat)
  | quoted (c : Char)
  deriving DecidableEq, Repr

/-- One item of a `BW` line's byte list: a byte, or a quoted ASCII string (R68). -/
inductive ByteItem where
  | lit (l : Literal)
  | text (cs : List Char)
  deriving DecidableEq, Repr

/-- One line of a host program: the command lines of R67, the host-operation lines of R68 and the
pseudo-instructions of R69. -/
inductive Line where
  /-- a command without an operand, or CRC.B with its byte (R67) -/
  | command (i : Instr)
  /-- `CRC.B` with its operand as written (R67) -/
  | crcByte (l : Literal)
  /-- `WR r, v` (R68) -/
  | wr (r : RegName) (v : Word)
  /-- `RD r` (R68) -/
  | rd (r : RegName)
  /-- `BW a, b0, …, bk` (R68) -/
  | bw (a : Nat) (bytes : List ByteItem)
  /-- `BR a, n` (R68) -/
  | br (a n : Nat)
  /-- `CHECKSUM b, n` (R69) -/
  | checksum (b n : Word)
  /-- `CRC.SET v` (R69) -/
  | crcSet (v : Word)
  /-- `STUFFB b, n` (R69) -/
  | stuffB (b n : Word)
  /-- `UNSTUFFB b, n` (R69) -/
  | unstuffB (b n : Word)
  /-- `UNSTUFFC n` (R69) -/
  | unstuffC (n : Word)
  /-- `HEXENC s, d, n` (R69) -/
  | hexEnc (s d n : Word)
  /-- `HEXDEC s, d, n` (R69) -/
  | hexDec (s d n : Word)
  /-- `CMD w` (R69) -/
  | rawCmd (w : Word)
  deriving DecidableEq, Repr

end Sys2Proof
end

