-- ==== Sys2Proof/Decode.lean ====
section
/-! DEFINITION. Command words: their fields (30_encoding.md R60), the decoder (R61), the opcode map (R64) and the
encoder (R64, R67). -/

namespace Sys2Proof

/-- R60: `OPC = w[7:0]`. -/
def opcField (w : Word) : Byte := w.extractLsb' 0 8

/-- R60, R62: `IMM8 = w[15:8]`. -/
def imm8Field (w : Word) : Byte := w.extractLsb' 8 8

/-- R60: `RSVD = w[31:16]`. -/
def rsvdField (w : Word) : Half := w.extractLsb' 16 16

/-- Why a word is illegal (R61, R65). The block reports all three as ILLEGAL_CMD. -/
inductive IllegalWord where
  | reservedBits
  | unknownOpcode
  | unusedImmediate
  deriving DecidableEq, Repr

/-- R64: the opcodes of the commands other than CRC.B. -/
def plainCommand (opc : Byte) : Option Instr :=
  if opc = 0x01 then some .crcClr
  else if opc = 0x03 then some .crcBuf
  else if opc = 0x10 then some .stuff
  else if opc = 0x11 then some .unstuff
  else if opc = 0x12 then some .unstuffC
  else if opc = 0x20 then some .hexEnc
  else if opc = 0x21 then some .hexDec
  else none

/-- R61: "every 32-bit word either selects exactly one command or is illegal". -/
def decode (w : Word) : Except IllegalWord Instr :=
  if rsvdField w ≠ 0 then .error .reservedBits
  else if opcField w = 0x02 then .ok (.crcB (imm8Field w))
  else
    match plainCommand (opcField w) with
    | none => .error .unknownOpcode
    | some i => if imm8Field w ≠ 0 then .error .unusedImmediate else .ok i

/-- R64: a command's OPC. -/
def Instr.opc : Instr → Byte
  | .crcClr => 0x01
  | .crcB _ => 0x02
  | .crcBuf => 0x03
  | .stuff => 0x10
  | .unstuff => 0x11
  | .unstuffC => 0x12
  | .hexEnc => 0x20
  | .hexDec => 0x21

/-- R67: IMM8 is "the operand (zero when there is none)". -/
def Instr.imm8 : Instr → Byte
  | .crcB b => b
  | .crcClr => 0
  | .crcBuf => 0
  | .stuff => 0
  | .unstuff => 0
  | .unstuffC => 0
  | .hexEnc => 0
  | .hexDec => 0

/-- R67: `enc(M)`, the command word `RSVD || IMM8 || OPC` with RSVD zero (R60). -/
def encode (i : Instr) : Word := (0 : Half) ++ i.imm8 ++ i.opc

/-- R64: a command's mnemonic. -/
def Instr.mnemonic : Instr → String
  | .crcClr => "CRC.CLR"
  | .crcB _ => "CRC.B"
  | .crcBuf => "CRC.BUF"
  | .stuff => "STUFF"
  | .unstuff => "UNSTUFF"
  | .unstuffC => "UNSTUFF.C"
  | .hexEnc => "HEX.ENC"
  | .hexDec => "HEX.DEC"

/-- A row of the opcode map: a word w selects it when `w & mask == match` (R64). -/
structure OpcodeRow where
  mnemonic : String
  pattern : Word
  mask : Word
  deriving DecidableEq, Repr

/-- The opcode map as R64 tabulates it. The decoder above follows R61 and does not read it: that the two
agree is a statement. -/
def opcodeMap : List OpcodeRow :=
  [⟨"CRC.CLR", 0x00000001, 0xFFFFFFFF⟩,
   ⟨"CRC.B", 0x00000002, 0xFFFF00FF⟩,
   ⟨"CRC.BUF", 0x00000003, 0xFFFFFFFF⟩,
   ⟨"STUFF", 0x00000010, 0xFFFFFFFF⟩,
   ⟨"UNSTUFF", 0x00000011, 0xFFFFFFFF⟩,
   ⟨"UNSTUFF.C", 0x00000012, 0xFFFFFFFF⟩,
   ⟨"HEX.ENC", 0x00000020, 0xFFFFFFFF⟩,
   ⟨"HEX.DEC", 0x00000021, 0xFFFFFFFF⟩]

/-- R64: `w & mask == match`. -/
def OpcodeRow.selects (r : OpcodeRow) (w : Word) : Bool := w &&& r.mask == r.pattern

/-- What `decode` reads from the word whose bits are `w`, of which the table gives `nbits` (the bits above are
zero). A command word has 32 bits, so a wider value is no command. -/
def decodeTableWord (nbits w : Nat) : Option Instr :=
  if w % 2 ^ nbits < 2 ^ 32 then (decode (BitVec.ofNat 32 (w % 2 ^ nbits))).toOption else none

end Sys2Proof
end

