-- ==== Sys2Proof/Config.lean ====
section
/-! DEFINITION. The implementation parameters of 00_scope.md R5. `BUF_SIZE` is the one parameter a model
takes as an argument: State holds it (`State.bufSize`, log entry 1), and `Config.bufSize` is its value on
this hardware. -/

namespace Sys2Proof

/-- R5, `SENTINEL`. -/
abbrev Config.sentinel : Byte := 0x00

/-- R5, `CRC_POLY` (93_implementation_defined.md I1 and D22: the source's literal, as written). -/
def Config.crcPoly : Byte := 0xA6

/-- R5, `CRC_INIT`. -/
abbrev Config.crcInit : Byte := 0x00

/-- R5, `MAX_STUFF_LEN`. -/
abbrev Config.maxStuffLen : Nat := 256

/-- R5, `BUF_SIZE` on this hardware. -/
def Config.bufSize : Nat := 1024

/-- R5: the least `BUF_SIZE` a model may take. -/
abbrev Config.bufSizeMin : Nat := 256

/-- R5: the greatest `BUF_SIZE` a model may take. -/
abbrev Config.bufSizeMax : Nat := 32768

/-- R5, `MAX_PAYLOAD`: context only, the block does not check it. -/
def Config.maxPayload : Nat := 192

/-- R5, `MAX_COMMANDS`: context only (the registry is out of scope, R4). -/
def Config.maxCommands : Nat := 16

/-- R48, `BLOCK_BASE`: where the block sits in a larger system's address map. OPEN (D10), and no rule of
the spec reads it, so no definition of this model does. -/
opaque Config.blockBase : Nat

end Sys2Proof
end

