-- ==== Sys2Proof/Machine/State.lean ====
section
/-! DEFINITION. The state of the block (10_state.md), what stops a run (70_reset_and_hazards.md R157), and the state
after reset (R36, R150). -/

namespace Sys2Proof.Machine

/-- What ends a run early. R157: "A run *faults* when a host access error occurs … or when any read touches an
unwritten BUF byte". A command error (R130) is no fault: it is a code in STATUS. -/
inductive Fault where
  /-- Raised by a read of BUF[a], by the host or by a command, when nothing has written it since reset (R35,
  93_implementation_defined.md I3). The hardware returns an unspecified value and goes on. Safe. -/
  | unwrittenRead (a : Nat)
  /-- Raised by RegRead and RegWrite at an offset that is none of the eight (R41, R54, I4): a bus error response to
  the host, which changes no state of the block. Safe. -/
  | registerOffset (off : Nat)
  /-- Raised by BufRead and BufWrite at `a >= BUF_SIZE` (R42, R54, I4): a bus error response to the host, which
  changes no state of the block. Safe. -/
  | bufferAddress (a : Nat)
  deriving DecidableEq, Repr

/-- Why an instruction has no meaning in this model. No arm of `exec` uses it: every command has its meaning. -/
inductive Refusal where
  /-- Raised by an arm of `exec` for an instruction not modelled yet; none is left. Safe. -/
  | notModelled (mnemonic : String)
  deriving DecidableEq, Repr

/-- What a host read returned (R40: `-> v32`, `-> v8`). -/
inductive Reply where
  | word (v : Word)
  | byte (v : Byte)
  deriving DecidableEq, Repr

/-- The bytes of BUF that have been written, with strictly rising addresses: a byte with no entry carries no
*written* mark (R35). -/
abbrev Memory := List Host.Cell

/-- R20: BUF and the eight registers. PARAM is constant (R23): its fields are `Config.crcPoly`, `Config.sentinel` and
`bufSize`, and `State.readReg` puts them together. The last two fields are the MODEL's own (log entry 2): the outside
world's pending inputs and the results the host's reads returned (R157). -/
structure State where
  /-- `BUF_SIZE`, PARAM[31:16]: a constant of the block, the argument R5 says a model takes. -/
  bufSize : Nat
  /-- BUF and its written marks (R22, R35). -/
  buf : Memory
  /-- CMD: the last command word written (R24). -/
  cmd : Word
  /-- STATUS: ERRCODE in [7:0], TERM in [8] (R25). -/
  status : Word
  /-- CRC: ACC in [7:0] (R26). -/
  crc : Word
  /-- SRC: an address in [15:0] (R27). -/
  src : Word
  /-- DST: an address in [15:0] (R28). -/
  dst : Word
  /-- LEN: a length in [15:0] (R29). -/
  len : Word
  /-- NEXT: the chain index in [15:0] (R30). -/
  next : Word
  /-- What the outside world will do, in order: each step takes the first. -/
  inputs : List Input
  /-- What the host's reads have returned, oldest first. -/
  replies : List Reply
  deriving DecidableEq, Repr

/-- R36, R150: every register at its reset value, every BUF byte unwritten, the block idle. -/
def State.reset : State where
  bufSize := Config.bufSize
  buf := []
  cmd := 0x00000000
  status := 0x00000000
  crc := 0x00000000
  src := 0x00000000
  dst := 0x00000000
  len := 0x00000000
  next := 0x00000000
  inputs := []
  replies := []

end Sys2Proof.Machine
end

