-- ==== Sys2Proof/Machine/Operands.lean ====
section
/-! DEFINITION. The operands of commands: the fields of the registers (10_state.md R26 to R31), written back zero
extended (R31), and the range tests over unbounded integers (R6, 20_memory.md R52, 42_hex.md R114). -/

namespace Sys2Proof.Machine

/-- `v[15:0]`. -/
def lowHalf (v : Word) : Half := v.extractLsb' 0 16

/-- `v[7:0]`. -/
def lowByte (v : Word) : Byte := v.extractLsb' 0 8

/-- R31: `zext_32` of a 16-bit field. -/
def zextHalf (h : Half) : Word := h.setWidth 32

/-- R31: `zext_32` of an 8-bit field. -/
def zextByte (b : Byte) : Word := b.setWidth 32

/-- CRC.ACC (R26). -/
def State.acc (s : State) : Byte := lowByte s.crc

/-- SRC[15:0] as an address (R27). -/
def State.srcAddr (s : State) : Nat := (lowHalf s.src).toNat

/-- DST[15:0] as an address (R28). -/
def State.dstAddr (s : State) : Nat := (lowHalf s.dst).toNat

/-- LEN[15:0] as a length (R29). -/
def State.lenBytes (s : State) : Nat := (lowHalf s.len).toNat

/-- NEXT[15:0] (R30): 16 bits, because the chain walk adds to it (R92). -/
def State.nextIndex (s : State) : Half := lowHalf s.next

/-- `ACC <- a`. -/
def State.setAcc (s : State) (a : Byte) : State := { s with crc := zextByte a }

/-- `NEXT <- n`. -/
def State.setNext (s : State) (n : Half) : State := { s with next := zextHalf n }

/-- R52: "a range of n bytes at base b is inside when `b + n <= BUF_SIZE`". -/
def State.rangeInside (s : State) (b n : Nat) : Bool := decide (b + n ≤ s.bufSize)

/-- R114: `overlap(a, na, b, nb)`. -/
def overlap (a na b nb : Nat) : Bool := decide (na > 0 ∧ nb > 0 ∧ a < b + nb ∧ b < a + na)

end Sys2Proof.Machine
end

