-- ==== Sys2Proof/Machine/Flags.lean ====
section
/-! DEFINITION. STATUS: the error codes (60_exceptions.md R130) and the two flags ERRCODE and TERM (10_state.md R25,
R34). -/

namespace Sys2Proof.Machine

/-- The command errors of R130. The codes 6 to 255 are reserved and "never written by this hardware". -/
inductive CmdError where
  | illegalCmd
  | range
  | length
  | illegalHex
  | overlap
  deriving DecidableEq, Repr

/-- R130: OK is code 0. -/
def okCode : Byte := 0

/-- R130: the code of each error. -/
def CmdError.code : CmdError → Byte
  | .illegalCmd => 1
  | .range => 2
  | .length => 3
  | .illegalHex => 4
  | .overlap => 5

/-- R25: ERRCODE in [7:0], TERM in [8], [31:9] zero. -/
def statusWord (errcode : Byte) (term : Bool) : Word := (0 : BitVec 23) ++ BitVec.ofBool term ++ errcode

/-- STATUS.ERRCODE (R25). -/
def State.errcode (s : State) : Byte := lowByte s.status

/-- STATUS.TERM (R25). -/
def State.term (s : State) : Bool := s.status.getLsbD 8

/-- `STATUS.ERRCODE <- OK ; STATUS.TERM <- term`: how a command that completes ends (R34). -/
def State.succeed (s : State) (term : Bool) : State := { s with status := statusWord okCode term }

end Sys2Proof.Machine
end

