-- ==== Sys2Proof/Machine/Ops.lean ====
section
/-! DEFINITION. The named operations over BUF and the registers, and raising a command error (00_scope.md R7,
60_exceptions.md R132), which is the block's whole exception mechanism: "The block has no trap mechanism" (R134), so
nothing is saved and there is nothing to return from (R135). -/

namespace Sys2Proof.Machine

/-- The canonical form of `Memory`: addresses strictly rise. -/
abbrev Memory.wf (m : Memory) : Prop := m.Pairwise fun c d => c.1 < d.1

/-- Every written byte is one of BUF's `size` bytes (R22). -/
abbrev Memory.within (size : Nat) (m : Memory) : Prop := ∀ c ∈ m, c.1 < size

/-- BUF[a], or none while nothing has written it (R35). -/
def memRead : Memory → Nat → Option Byte
  | [], _ => none
  | (k, v) :: m, a => if a = k then some v else memRead m a

/-- `MemWrite(a, 1, v)` (R7): stores the byte and marks it written (R35). -/
def memWrite : Memory → Nat → Byte → Memory
  | [], a, v => [(a, v)]
  | (k, w) :: m, a, v =>
    if a < k then (a, v) :: (k, w) :: m
    else if a = k then (a, v) :: m
    else (k, w) :: memWrite m a v

/-- `MemRead(a, 1)` (R7): a read of an unwritten byte is a model fault (R35). -/
def load (m : Memory) (a : Nat) : Except Fault Byte :=
  match memRead m a with
  | some v => .ok v
  | none => .error (.unwrittenRead a)

/-- `raise CmdError(e)` (R7, R132): ERRCODE <- e, TERM <- 0, and no other state is changed. -/
def State.raise (s : State) (e : CmdError) : State := { s with status := statusWord e.code false }

/-- The end of a command's work on BUF: a model fault, or the state its result leads to. -/
def finish {α : Type} (r : Except Fault α) (k : α → State) : Host.Outcome State Fault Refusal :=
  match r with
  | .error f => .fault f
  | .ok x => .next (k x)

/-- 10_state.md section 3: the offset of each register. -/
def offsetOf : RegName → Nat
  | .param => 0x00
  | .cmd => 0x04
  | .status => 0x08
  | .crc => 0x0C
  | .src => 0x10
  | .dst => 0x14
  | .len => 0x18
  | .next => 0x1C

/-- R41: the register at an offset, none when the offset is "not one of these eight". -/
def regAt (off : Nat) : Option RegName :=
  if off = 0x00 then some .param
  else if off = 0x04 then some .cmd
  else if off = 0x08 then some .status
  else if off = 0x0C then some .crc
  else if off = 0x10 then some .src
  else if off = 0x14 then some .dst
  else if off = 0x18 then some .len
  else if off = 0x1C then some .next
  else none

/-- R23: PARAM is `BUF_SIZE || SENTINEL || CRC_POLY`. -/
def State.paramWord (s : State) : Word := BitVec.ofNat 16 s.bufSize ++ Config.sentinel ++ Config.crcPoly

/-- The value RegRead returns (R23 to R31): a bit outside a register's fields "reads as 0" (R31). -/
def State.readReg (s : State) : RegName → Word
  | .param => s.paramWord
  | .cmd => s.cmd
  | .status => statusWord s.errcode s.term
  | .crc => zextByte s.acc
  | .src => zextHalf (lowHalf s.src)
  | .dst => zextHalf (lowHalf s.dst)
  | .len => zextHalf (lowHalf s.len)
  | .next => zextHalf (lowHalf s.next)

/-- What RegWrite stores (R24, R31, R32). Writing CMD also executes the command: `hostWrite` does that. -/
def State.writeReg (s : State) (r : RegName) (v : Word) : State :=
  match r with
  | .param => s
  | .cmd => { s with cmd := v }
  | .status => s
  | .crc => { s with crc := zextByte (lowByte v) }
  | .src => { s with src := zextHalf (lowHalf v) }
  | .dst => { s with dst := zextHalf (lowHalf v) }
  | .len => { s with len := zextHalf (lowHalf v) }
  | .next => { s with next := zextHalf (lowHalf v) }

/-- A host read returns its value to the host and changes no state of the block (R33). -/
def State.reply (s : State) (r : Reply) : State := { s with replies := s.replies ++ [r] }

/-- R150: the hardware reset input puts every register in its reset state and leaves every BUF byte unwritten. What
the outside world has pending or has been told is not the block's to reset, and BUF_SIZE is constant. -/
def State.assertReset (s : State) : State :=
  { State.reset with bufSize := s.bufSize, inputs := s.inputs, replies := s.replies }

end Sys2Proof.Machine
end

