-- ==== Sys2Proof/Machine/Crc.lean ====
section
/-! DEFINITION. The CRC unit (40_crc.md): the byte step, the checksum, and CRC.CLR, CRC.B and CRC.BUF. -/

namespace Sys2Proof.Machine

/-- One iteration of R80's loop: shift left dropping bit 7, then exclusive-or the feedback constant when bit 7 was 1. -/
def crcRound (c : Byte) : Byte :=
  if c.getLsbD 7 then (c <<< 1) ^^^ Config.crcPoly else c <<< 1

/-- `n` iterations of R80's loop. -/
def crcRounds : Nat → Byte → Byte
  | 0, c => c
  | n + 1, c => crcRounds n (crcRound c)

/-- R80: `crc_step(a, b)`. -/
def crcStep (a b : Byte) : Byte := crcRounds 8 (a ^^^ b)

/-- R81: `checksum(m)`. -/
def checksum (m : List Byte) : Byte := m.foldl crcStep Config.crcInit

/-- R83: `CRC.CLR`. -/
def execCrcClr (s : State) : Host.Outcome State Fault Refusal :=
  .next ((s.setAcc Config.crcInit).succeed false)

/-- R84: `CRC.B imm8`. -/
def execCrcB (imm8 : Byte) (s : State) : Host.Outcome State Fault Refusal :=
  .next ((s.setAcc (crcStep s.acc imm8)).succeed false)

/-- R85's loop: absorb `n` bytes from address `a` upwards. -/
def crcLoop : Nat → Nat → Memory → Byte → Except Fault Byte
  | 0, _, _, acc => .ok acc
  | n + 1, a, m, acc =>
    match load m a with
    | .error f => .error f
    | .ok b => crcLoop n (a + 1) m (crcStep acc b)

/-- R85: `CRC.BUF`. -/
def execCrcBuf (s : State) : Host.Outcome State Fault Refusal :=
  if s.rangeInside s.srcAddr s.lenBytes then
    finish (crcLoop s.lenBytes s.srcAddr s.buf s.acc) fun acc => (s.setAcc acc).succeed false
  else .next (s.raise .range)

/-- R87's table `T`, one row per high nibble, as the spec prints it (informative: no meaning reads it). -/
def crcTable : List Byte :=
  ([0x00, 0xA6, 0xEA, 0x4C, 0x72, 0xD4, 0x98, 0x3E, 0xE4, 0x42, 0x0E, 0xA8, 0x96, 0x30, 0x7C, 0xDA] : List Byte)
  ++ [0x6E, 0xC8, 0x84, 0x22, 0x1C, 0xBA, 0xF6, 0x50, 0x8A, 0x2C, 0x60, 0xC6, 0xF8, 0x5E, 0x12, 0xB4]
  ++ [0xDC, 0x7A, 0x36, 0x90, 0xAE, 0x08, 0x44, 0xE2, 0x38, 0x9E, 0xD2, 0x74, 0x4A, 0xEC, 0xA0, 0x06]
  ++ [0xB2, 0x14, 0x58, 0xFE, 0xC0, 0x66, 0x2A, 0x8C, 0x56, 0xF0, 0xBC, 0x1A, 0x24, 0x82, 0xCE, 0x68]
  ++ [0x1E, 0xB8, 0xF4, 0x52, 0x6C, 0xCA, 0x86, 0x20, 0xFA, 0x5C, 0x10, 0xB6, 0x88, 0x2E, 0x62, 0xC4]
  ++ [0x70, 0xD6, 0x9A, 0x3C, 0x02, 0xA4, 0xE8, 0x4E, 0x94, 0x32, 0x7E, 0xD8, 0xE6, 0x40, 0x0C, 0xAA]
  ++ [0xC2, 0x64, 0x28, 0x8E, 0xB0, 0x16, 0x5A, 0xFC, 0x26, 0x80, 0xCC, 0x6A, 0x54, 0xF2, 0xBE, 0x18]
  ++ [0xAC, 0x0A, 0x46, 0xE0, 0xDE, 0x78, 0x34, 0x92, 0x48, 0xEE, 0xA2, 0x04, 0x3A, 0x9C, 0xD0, 0x76]
  ++ [0x3C, 0x9A, 0xD6, 0x70, 0x4E, 0xE8, 0xA4, 0x02, 0xD8, 0x7E, 0x32, 0x94, 0xAA, 0x0C, 0x40, 0xE6]
  ++ [0x52, 0xF4, 0xB8, 0x1E, 0x20, 0x86, 0xCA, 0x6C, 0xB6, 0x10, 0x5C, 0xFA, 0xC4, 0x62, 0x2E, 0x88]
  ++ [0xE0, 0x46, 0x0A, 0xAC, 0x92, 0x34, 0x78, 0xDE, 0x04, 0xA2, 0xEE, 0x48, 0x76, 0xD0, 0x9C, 0x3A]
  ++ [0x8E, 0x28, 0x64, 0xC2, 0xFC, 0x5A, 0x16, 0xB0, 0x6A, 0xCC, 0x80, 0x26, 0x18, 0xBE, 0xF2, 0x54]
  ++ [0x22, 0x84, 0xC8, 0x6E, 0x50, 0xF6, 0xBA, 0x1C, 0xC6, 0x60, 0x2C, 0x8A, 0xB4, 0x12, 0x5E, 0xF8]
  ++ [0x4C, 0xEA, 0xA6, 0x00, 0x3E, 0x98, 0xD4, 0x72, 0xA8, 0x0E, 0x42, 0xE4, 0xDA, 0x7C, 0x30, 0x96]
  ++ [0xFE, 0x58, 0x14, 0xB2, 0x8C, 0x2A, 0x66, 0xC0, 0x1A, 0xBC, 0xF0, 0x56, 0x68, 0xCE, 0x82, 0x24]
  ++ [0x90, 0x36, 0x7A, 0xDC, 0xE2, 0x44, 0x08, 0xAE, 0x74, 0xD2, 0x9E, 0x38, 0x06, 0xA0, 0xEC, 0x4A]

end Sys2Proof.Machine
end

