-- ==== Sys2Proof/Machine/Hex.lean ====
section
/-! DEFINITION. The HEX unit (42_hex.md): digits, HEX.ENC and HEX.DEC. The character codes are ASCII's (R111). -/

namespace Sys2Proof.Machine

/-- R110: `digit(v)`, `'0' + v` or `'A' + (v - 10)`. -/
def hexDigit (v : Nibble) : Byte :=
  if v.toNat ≤ 9 then BitVec.ofNat 8 (0x30 + v.toNat) else BitVec.ofNat 8 (0x41 + (v.toNat - 10))

/-- R110: `hexval(c)`, none for INVALID. -/
def hexVal (c : Byte) : Option Nibble :=
  if 0x30 ≤ c.toNat ∧ c.toNat ≤ 0x39 then some (BitVec.ofNat 4 (c.toNat - 0x30))
  else if 0x41 ≤ c.toNat ∧ c.toNat ≤ 0x46 then some (BitVec.ofNat 4 (c.toNat - 0x41 + 10))
  else if 0x61 ≤ c.toNat ∧ c.toNat ≤ 0x66 then some (BitVec.ofNat 4 (c.toNat - 0x61 + 10))
  else none

/-- `b[7:4]`. -/
def highNibble (b : Byte) : Nibble := b.extractLsb' 4 4

/-- `b[3:0]`. -/
def lowNibble (b : Byte) : Nibble := b.extractLsb' 0 4

/-- R113: `(hi << 4) | lo`. -/
def joinNibbles (hi lo : Nibble) : Byte := (hi.setWidth 8 <<< 4) ||| lo.setWidth 8

/-- R112's loop: `n` bytes left, from `src` to `dst`. -/
def hexEncLoop : Nat → Nat → Nat → Memory → Except Fault Memory
  | 0, _, _, m => .ok m
  | n + 1, src, dst, m =>
    match load m src with
    | .error f => .error f
    | .ok b =>
      hexEncLoop n (src + 1) (dst + 2)
        (memWrite (memWrite m dst (hexDigit (highNibble b))) (dst + 1) (hexDigit (lowNibble b)))

/-- R112: `HEX.ENC`. -/
def execHexEnc (s : State) : Host.Outcome State Fault Refusal :=
  if s.rangeInside s.srcAddr s.lenBytes && s.rangeInside s.dstAddr (2 * s.lenBytes) then
    if overlap s.srcAddr s.lenBytes s.dstAddr (2 * s.lenBytes) then .next (s.raise .overlap)
    else
      finish (hexEncLoop s.lenBytes s.srcAddr s.dstAddr s.buf) fun m => { s with buf := m }.succeed false
  else .next (s.raise .range)

/-- R113's first loop: the values of `n` characters from `a` upwards, none at the first INVALID one ("characters after
the first invalid one are not read"). -/
def hexValues : Nat → Nat → Memory → Except Fault (Option (List Nibble))
  | 0, _, _ => .ok (some [])
  | n + 1, a, m =>
    match load m a with
    | .error f => .error f
    | .ok c =>
      match hexVal c with
      | none => .ok none
      | some v =>
        match hexValues n (a + 1) m with
        | .error f => .error f
        | .ok vs => .ok (vs.map fun rest => v :: rest)

/-- R113's second loop: one byte per pair of values, high nibble first. -/
def hexStore : List Nibble → Nat → Memory → Memory
  | hi :: lo :: vs, dst, m => hexStore vs (dst + 1) (memWrite m dst (joinNibbles hi lo))
  | [_], _, m => m
  | [], _, m => m

/-- The end of HEX.DEC: ILLEGAL_HEX with nothing written, or the decoded bytes at DST. -/
def State.endHexDec (s : State) : Option (List Nibble) → State
  | none => s.raise .illegalHex
  | some vs => { s with buf := hexStore vs s.dstAddr s.buf }.succeed false

/-- R113: `HEX.DEC`. -/
def execHexDec (s : State) : Host.Outcome State Fault Refusal :=
  if s.rangeInside s.srcAddr (2 * s.lenBytes) && s.rangeInside s.dstAddr s.lenBytes then
    if overlap s.srcAddr (2 * s.lenBytes) s.dstAddr s.lenBytes then .next (s.raise .overlap)
    else finish (hexValues (2 * s.lenBytes) s.srcAddr s.buf) s.endHexDec
  else .next (s.raise .range)

end Sys2Proof.Machine
end

