-- ==== Sys2Proof/Machine/Stuffing.lean ====
section
/-! DEFINITION. The STF unit (41_stuffing.md): STUFF, the chain walk, UNSTUFF and UNSTUFF.C. -/

namespace Sys2Proof.Machine

/-- R90's loop, with `n` indices left, at index `i`, the previous anchor at `last`. -/
def stuffLoop : Nat → Nat → Nat → Nat → Memory → Except Fault Memory
  | 0, _, _, _, m => .ok m
  | n + 1, base, i, last, m =>
    match load m (base + i) with
    | .error f => .error f
    | .ok v =>
      if v = Config.sentinel then
        stuffLoop n base (i + 1) i (memWrite m (base + last) (BitVec.ofNat 8 (i - last)))
      else stuffLoop n base (i + 1) last m

/-- R90: `STUFF`. The scan runs over the indices 1 to LEN-1. -/
def execStuff (s : State) : Host.Outcome State Fault Refusal :=
  if s.lenBytes > Config.maxStuffLen then .next (s.raise .length)
  else if s.rangeInside s.srcAddr s.lenBytes then
    finish (stuffLoop (s.lenBytes - 1) s.srcAddr 1 0 s.buf) fun m => { s with buf := m }.succeed false
  else .next (s.raise .range)

/-- What the chain walk leaves: BUF, NEXT, and `term`. -/
structure WalkEnd where
  buf : Memory
  next : Half
  term : Bool
  deriving DecidableEq, Repr

/-- R92: `walk()`, with `tests` tests of its loop condition left. "NEXT grows by at least 1 per iteration, so the walk
ends after at most LEN iterations", so LEN + 1 tests are all it can make (`walkFrom`). -/
def walk : Nat → Nat → Nat → Half → Memory → Except Fault WalkEnd
  | 0, _, _, next, m => .ok ⟨m, next, false⟩
  | tests + 1, base, len, next, m =>
    if next.toNat < len then
      match load m (base + next.toNat) with
      | .error f => .error f
      | .ok t =>
        if t = 0x00 then .ok ⟨memWrite m (base + next.toNat) Config.sentinel, next, true⟩
        else walk tests base len (next + t.setWidth 16) (memWrite m (base + next.toNat) Config.sentinel)
    else .ok ⟨m, next, false⟩

/-- R92: the walk of a command, over `BUF[SRC .. SRC+LEN-1]`. -/
def State.walkFrom (s : State) (next : Half) (m : Memory) : Except Fault WalkEnd :=
  walk (s.lenBytes + 1) s.srcAddr s.lenBytes next m

/-- The state a walk leads to: BUF and NEXT as it left them, TERM <- term. -/
def State.endWalk (s : State) (e : WalkEnd) : State := ({ s with buf := e.buf }.setNext e.next).succeed e.term

/-- R94: `UNSTUFF`. -/
def execUnstuff (s : State) : Host.Outcome State Fault Refusal :=
  if s.lenBytes = 0 then .next (s.raise .length)
  else if s.rangeInside s.srcAddr s.lenBytes then
    match load s.buf s.srcAddr with
    | .error f => .fault f
    | .ok t => finish (s.walkFrom (t.setWidth 16) (memWrite s.buf s.srcAddr Config.sentinel)) s.endWalk
  else .next (s.raise .range)

/-- R95: `UNSTUFF.C`. -/
def execUnstuffC (s : State) : Host.Outcome State Fault Refusal :=
  if s.rangeInside s.srcAddr s.lenBytes then finish (s.walkFrom s.nextIndex s.buf) s.endWalk
  else .next (s.raise .range)

end Sys2Proof.Machine
end

