-- ==== Sys2Proof/Machine/Dispatch.lean ====
section
/-! DEFINITION. Executing a decoded command (30_encoding.md R61, last line): one arm per command, each a call of its
meaning. -/

namespace Sys2Proof.Machine

def exec (i : Instr) (s : State) : Host.Outcome State Fault Refusal :=
  match i with
  -- CRC (40_crc.md)
  | .crcClr => Sys2Proof.Machine.execCrcClr s
  | .crcB imm8 => Sys2Proof.Machine.execCrcB imm8 s
  | .crcBuf => Sys2Proof.Machine.execCrcBuf s
  -- STF (41_stuffing.md)
  | .stuff => Sys2Proof.Machine.execStuff s
  | .unstuff => Sys2Proof.Machine.execUnstuff s
  | .unstuffC => Sys2Proof.Machine.execUnstuffC s
  -- HEX (42_hex.md)
  | .hexEnc => Sys2Proof.Machine.execHexEnc s
  | .hexDec => Sys2Proof.Machine.execHexDec s

end Sys2Proof.Machine
end

