-- ==== Sys2Proof/Machine/HostInterface.lean ====
section
/-! DEFINITION. The host interface (20_memory.md R40 to R54): the four host operations, the CMD write that executes a
command (30_encoding.md R61), and the reset input (70_reset_and_hazards.md R150). Each is one atomic step (R46). -/

namespace Sys2Proof.Machine

/-- R61, after `CMD <- w`: execute `w`, or raise ILLEGAL_CMD (R65). -/
def runCommand (w : Word) (s : State) : Host.Outcome State Fault Refusal :=
  match decode w with
  | .ok i => exec i s
  | .error _ => .next (s.raise .illegalCmd)

/-- R40: RegWrite. A write to CMD "sets `CMD <- w` and then executes the command w" (R24). -/
def hostWrite (r : RegName) (v : Word) (s : State) : Host.Outcome State Fault Refusal :=
  match r with
  | .cmd => runCommand v (s.writeReg .cmd v)
  | .param => .next (s.writeReg .param v)
  | .status => .next (s.writeReg .status v)
  | .crc => .next (s.writeReg .crc v)
  | .src => .next (s.writeReg .src v)
  | .dst => .next (s.writeReg .dst v)
  | .len => .next (s.writeReg .len v)
  | .next => .next (s.writeReg .next v)

/-- R40 to R42, R54: one host operation. -/
def hostAccess (op : HostOp) (s : State) : Host.Outcome State Fault Refusal :=
  match op with
  | .regRead off =>
    match regAt off with
    | none => .fault (.registerOffset off)
    | some r => .next (s.reply (.word (s.readReg r)))
  | .regWrite off v =>
    match regAt off with
    | none => .fault (.registerOffset off)
    | some r => hostWrite r v s
  | .bufRead a =>
    if a < s.bufSize then finish (load s.buf a) fun v => s.reply (.byte v) else .fault (.bufferAddress a)
  | .bufWrite a v =>
    if a < s.bufSize then .next { s with buf := memWrite s.buf a v } else .fault (.bufferAddress a)

/-- What one input does to the block. -/
def takeInput (i : Input) (s : State) : Host.Outcome State Fault Refusal :=
  match i with
  | .access op => hostAccess op s
  | .reset => .next s.assertReset

end Sys2Proof.Machine
end

