-- ==== Sys2Proof/Machine/Step.lean ====
section
/-! DEFINITION. One step of the block and its host. The block has no program counter and fetches nothing (10_state.md
R21): a step takes the next input from outside. With none pending the block is idle (R21, R150), and a step changes
nothing. -/

namespace Sys2Proof.Machine

/-- The block takes its inputs one at a time, in the order the host issues them (20_memory.md R49). -/
def step (s : State) : Host.Outcome State Fault Refusal :=
  match s.inputs with
  | [] => .next s
  | i :: rest => takeInput i { s with inputs := rest }

/-- `s` with a host write of the command word `w` to CMD (offset 0x04) as the next input: a command word is taken from
that write and from nowhere else (R21, 20_memory.md R51). -/
def State.withFetchWord (s : State) (nbits w : Nat) : State :=
  { s with inputs := .access (.regWrite 0x04 (BitVec.ofNat 32 (w % 2 ^ nbits))) :: s.inputs }

end Sys2Proof.Machine
end

