-- ==== Sys2Proof/Machine/Program.lean ====
section
/-! DEFINITION. Host programs: the host operations that command lines, host-operation lines and pseudo-instructions
stand for (30_encoding.md R67 to R69), and giving them to the block. -/

namespace Sys2Proof.Machine

/-- R6: the ASCII code of a character. -/
def charCode (c : Char) : Byte := BitVec.ofNat 8 c.toNat

/-- The byte an operand names, none when it is not "0 to 255" (R67). -/
def literalByte (l : Literal) : Option Byte :=
  match l with
  | .decimal n => if n ≤ 255 then some (BitVec.ofNat 8 n) else none
  | .hex n => if n ≤ 255 then some (BitVec.ofNat 8 n) else none
  | .quoted c => if c.toNat < 128 then some (charCode c) else none

/-- R68: the bytes of one item of a `BW` line, one per character of a string. -/
def itemBytes (b : ByteItem) : Option (List Byte) :=
  match b with
  | .lit l => (literalByte l).map fun v => [v]
  | .text cs => if cs.all (fun c => decide (c.toNat < 128)) then some (cs.map charCode) else none

/-- The bytes of a `BW` line, in order; none when one of its items names no byte. -/
def itemsBytes : List ByteItem → Option (List Byte)
  | [] => some []
  | b :: bs =>
    match itemBytes b, itemsBytes bs with
    | some vs, some ws => some (vs ++ ws)
    | _, _ => none

/-- R68: `WR r, v`. -/
def writeOp (r : RegName) (v : Word) : HostOp := .regWrite (offsetOf r) v

/-- R67: a command line `M` stands for `WR CMD, enc(M)`. -/
def commandOp (i : Instr) : HostOp := writeOp .cmd (encode i)

/-- R68: `BufWrite(a, b0); BufWrite(a+1, b1); …`. -/
def bufWrites : Nat → List Byte → List HostOp
  | _, [] => []
  | a, v :: vs => .bufWrite a v :: bufWrites (a + 1) vs

/-- R68: `BufRead(a); …; BufRead(a+n-1)`. -/
def bufReads : Nat → Nat → List HostOp
  | _, 0 => []
  | a, n + 1 => .bufRead a :: bufReads (a + 1) n

/-- R67 to R69: the host operations a program line expands to; none when its operand is not one R67 and R68 allow. -/
def expand (l : Line) : Option (List HostOp) :=
  match l with
  | .command i => some [commandOp i]
  | .crcByte b => (literalByte b).map fun v => [commandOp (.crcB v)]
  | .wr r v => some [writeOp r v]
  | .rd r => some [.regRead (offsetOf r)]
  | .bw a bytes => (itemsBytes bytes).map fun vs => bufWrites a vs
  | .br a n => some (bufReads a n)
  | .checksum b n => some [writeOp .src b, writeOp .len n, commandOp .crcClr, commandOp .crcBuf]
  | .crcSet v => some [writeOp .crc v]
  | .stuffB b n => some [writeOp .src b, writeOp .len n, commandOp .stuff]
  | .unstuffB b n => some [writeOp .src b, writeOp .len n, commandOp .unstuff]
  | .unstuffC n => some [writeOp .len n, commandOp .unstuffC]
  | .hexEnc s d n => some [writeOp .src s, writeOp .dst d, writeOp .len n, commandOp .hexEnc]
  | .hexDec s d n => some [writeOp .src s, writeOp .dst d, writeOp .len n, commandOp .hexDec]
  | .rawCmd w => some [writeOp .cmd w]

/-- R68: a program's lines "run in order"; none when a line has no expansion. -/
def expandAll : List Line → Option (List HostOp)
  | [] => some []
  | l :: ls =>
    match expand l, expandAll ls with
    | some ops, some rest => some (ops ++ rest)
    | _, _ => none

/-- R157: the host operations `ops` applied from the state `s`, after whatever is already pending there. -/
def State.withHostOps (s : State) (ops : List HostOp) : State := { s with inputs := s.inputs ++ ops.map .access }

end Sys2Proof.Machine
end

