-- ==== Sys2Proof/Safety.lean ====
section
/-! DEFINITION. The terms the statements are made in: the invariant of the block's states, runs and their end
(70_reset_and_hazards.md R157), byte sequences in BUF (20_memory.md R44), and the offset chain (41_stuffing.md). -/

namespace Sys2Proof.Machine

/-- The values R25 and R130 let STATUS have: OK or an error code with TERM = 0, or OK with TERM = 1. -/
abbrev LegalStatus (w : Word) : Prop := w.toNat ≤ 5 ∨ w.toNat = 0x100

/-- What holds of the block in every state the spec's parameters allow (R5) and every run keeps. -/
structure State.Inv (s : State) : Prop where
  /-- R5: the range of the parameter BUF_SIZE. -/
  bufSize_min : Config.bufSizeMin ≤ s.bufSize
  bufSize_max : s.bufSize ≤ Config.bufSizeMax
  /-- BUF is canonical, and holds bytes at its own addresses only (R22). -/
  buf_wf : Memory.wf s.buf
  buf_within : Memory.within s.bufSize s.buf
  /-- R130: the reserved codes are never written, and TERM is 1 only on success (R25). -/
  status_legal : LegalStatus s.status
  /-- R31: bits outside the fields are 0. -/
  crc_field : s.crc.toNat < 2 ^ 8
  src_field : s.src.toNat < 2 ^ 16
  dst_field : s.dst.toNat < 2 ^ 16
  len_field : s.len.toNat < 2 ^ 16
  next_field : s.next.toNat < 2 ^ 16

/-- R157: a run ends when the host's last operation completes. -/
def State.runToEnd (s : State) : Host.Outcome State Fault Refusal := Host.Core.run Sys2Proof.core s.inputs.length s

/-- A safe run: it reaches its end without a fault (R157). -/
def State.SafeRun (s : State) : Prop := ∃ t, s.runToEnd = .next t

/-- R44: the byte sequence `xs` stands at `BUF[b .. b+n-1]`, every byte written. -/
def State.holds (s : State) (b : Nat) (xs : List Byte) : Prop :=
  ∀ i, i < xs.length → memRead s.buf (b + i) = xs[i]?

/-- The offset chain that unstuffing follows (R92), over the bytes `X` as they stand BEFORE the walk: following from
position `p` visits the positions `vs`, each with a chain value other than 0x00, and comes to `q`. -/
inductive Hops (X : Nat → Byte) (len : Nat) : Nat → List Nat → Nat → Prop where
  | here {p : Nat} : Hops X len p [] p
  | hop {p q : Nat} {vs : List Nat} : p < len → X p ≠ 0x00 → Hops X len (p + (X p).toNat) vs q →
      Hops X len p (p :: vs) q

/-- BUF after a walk that visited `vs`: "every position visited ends as 0x00" (R94), every other byte as it was. -/
def State.Restored (s : State) (vs : List Nat) (m : Memory) : Prop :=
  (∀ p ∈ vs, memRead m (s.srcAddr + p) = some 0x00) ∧
  ∀ a, (∀ p ∈ vs, a ≠ s.srcAddr + p) → memRead m a = memRead s.buf a

/-- What UNSTUFF and UNSTUFF.C do once their checks have passed, for a walk that starts at index `start` (R92): they
follow the chain to `e`, where it leaves LEN behind (TERM = 0), meets a zero chain value (TERM = 1), or meets a byte
that nothing has written (a model fault, R35). -/
def State.FollowsChain (s : State) (i : Instr) (start : Nat) : Prop :=
  ∀ (X : Nat → Byte) (vs : List Nat) (e : Nat), Hops X s.lenBytes start vs e →
    (∀ p ∈ vs, memRead s.buf (s.srcAddr + p) = some (X p)) →
    (s.lenBytes ≤ e →
      ∃ m, exec i s = .next { s with buf := m, next := BitVec.ofNat 32 e, status := 0x00000000 } ∧ s.Restored vs m) ∧
    (e < s.lenBytes → memRead s.buf (s.srcAddr + e) = some 0x00 →
      ∃ m, exec i s = .next { s with buf := m, next := BitVec.ofNat 32 e, status := 0x00000100 } ∧
        s.Restored (e :: vs) m) ∧
    (e < s.lenBytes → memRead s.buf (s.srcAddr + e) = none →
      exec i s = .fault (.unwrittenRead (s.srcAddr + e)))

/-- R110, R115: a lowercase hex digit becomes its uppercase form, every other character stays. -/
def upperHex (c : Byte) : Byte := if 0x61 ≤ c.toNat ∧ c.toNat ≤ 0x66 then c - 0x20 else c

/-- R130: LEN is outside what the command accepts. -/
def LengthFails (s : State) : Instr → Prop
  | .stuff => 256 < s.lenBytes
  | .unstuff => s.lenBytes = 0
  | .crcClr => False
  | .crcB _ => False
  | .crcBuf => False
  | .unstuffC => False
  | .hexEnc => False
  | .hexDec => False

/-- R130, R52: a range the command would touch passes the end of BUF. -/
def RangeFails (s : State) : Instr → Prop
  | .crcClr => False
  | .crcB _ => False
  | .crcBuf => s.bufSize < s.srcAddr + s.lenBytes
  | .stuff => s.bufSize < s.srcAddr + s.lenBytes
  | .unstuff => s.bufSize < s.srcAddr + s.lenBytes
  | .unstuffC => s.bufSize < s.srcAddr + s.lenBytes
  | .hexEnc => s.bufSize < s.srcAddr + s.lenBytes ∨ s.bufSize < s.dstAddr + 2 * s.lenBytes
  | .hexDec => s.bufSize < s.srcAddr + 2 * s.lenBytes ∨ s.bufSize < s.dstAddr + s.lenBytes

/-- R130, R114: source and destination share an address. -/
def OverlapFails (s : State) : Instr → Prop
  | .crcClr => False
  | .crcB _ => False
  | .crcBuf => False
  | .stuff => False
  | .unstuff => False
  | .unstuffC => False
  | .hexEnc => 0 < s.lenBytes ∧ s.srcAddr < s.dstAddr + 2 * s.lenBytes ∧ s.dstAddr < s.srcAddr + s.lenBytes
  | .hexDec => 0 < s.lenBytes ∧ s.srcAddr < s.dstAddr + s.lenBytes ∧ s.dstAddr < s.srcAddr + 2 * s.lenBytes

/-- What an instruction stores to in BUF: nothing outside `[base, base + n)`, and with `n = 0` nothing at all (R63, and
each command's rule). -/
def storesAt (s : State) : Instr → Nat × Nat
  | .crcClr => (0, 0)
  | .crcB _ => (0, 0)
  | .crcBuf => (0, 0)
  | .stuff => (s.srcAddr, s.lenBytes)
  | .unstuff => (s.srcAddr, s.lenBytes)
  | .unstuffC => (s.srcAddr, s.lenBytes)
  | .hexEnc => (s.dstAddr, 2 * s.lenBytes)
  | .hexDec => (s.dstAddr, s.lenBytes)

/-- One part of a checksummed sequence (R86): absorbed from BUF by CRC.BUF, or as one byte by CRC.B. -/
inductive AbsorbPart where
  | range (m : List Byte)
  | byte (b : Byte)
  deriving DecidableEq, Repr

/-- The bytes of a part. -/
def AbsorbPart.bytes : AbsorbPart → List Byte
  | .range m => m
  | .byte b => [b]

/-- R86: the parts absorbed one after the other, the first at address `a`, "with SRC and LEN set to the part". -/
def absorb : List AbsorbPart → Nat → State → Host.Outcome State Fault Refusal
  | [], _, s => .next s
  | .range m :: ps, a, s =>
    match exec .crcBuf { s with src := BitVec.ofNat 32 a, len := BitVec.ofNat 32 m.length } with
    | .next t => absorb ps (a + m.length) t
    | .fault f => .fault f
    | .refused r => .refused r
  | .byte b :: ps, a, s =>
    match exec (.crcB b) s with
    | .next t => absorb ps (a + 1) t
    | .fault f => .fault f
    | .refused r => .refused r

end Sys2Proof.Machine
end

