-- ==== Sys2Proof/Certificates/Slice0/Obligations.lean ====
section
/-! DEFINITION. The statements about the model, in the order of OBLIGATIONS.json. Each docstring names the rule of spec/
it formalises. `s.inputs = .access (.regWrite 0x04 w) :: rest` says that the host's next operation writes the command
word `w` to CMD; that pending operations stand in State is the model's own form (log entry 2). -/

open Sys2Proof Sys2Proof.Machine

/-! ### Reset, inputs, invariant -/

/-- R36: the state after reset, read through the registers: PARAM is its constant for BUF_SIZE = 1024, every other
register is 0, and every byte of BUF is unwritten. -/
def Obligations.ResetStateIsAsListed : Prop :=
  (∀ r, State.reset.readReg r = if r = .param then 0x040000A6 else 0x00000000) ∧
  State.reset.errcode = 0 ∧ State.reset.term = false ∧ State.reset.acc = 0 ∧
  ∀ a, memRead State.reset.buf a = none

/-- R150: from any state the reset input puts every register in its reset state and leaves every BUF byte unwritten;
BUF_SIZE is constant. That the other pending inputs and the replies already given stand is the model's choice (log
entry 3). -/
def Obligations.ResetInputRestoresResetState : Prop :=
  ∀ (s : State) (rest : List Input), s.inputs = .reset :: rest →
    ∃ t, step s = .next t ∧ (∀ r, r ≠ .param → t.readReg r = 0x00000000) ∧ t.readReg .param = s.readReg .param ∧
      t.bufSize = s.bufSize ∧ (∀ a, memRead t.buf a = none) ∧ t.inputs = rest ∧ t.replies = s.replies

/-- The invariant that StepKeepsInvariant is about holds of the state after reset (R36). -/
def Obligations.ResetMeetsInvariant : Prop := State.reset.Inv

/-- Every step keeps the invariant: BUF_SIZE in its range (R5), BUF canonical and inside its addresses (R22), STATUS one
of the values R25 and R130 allow, every bit outside a register's fields 0 (R31). -/
def Obligations.StepKeepsInvariant : Prop := ∀ s t : State, s.Inv → step s = .next t → t.Inv

/-- R157, R54, R35: a step never refuses, and it faults only for a host access error of the operation it takes or for a
read of a byte of BUF that nothing has written. -/
def Obligations.StepFaultsOnlyAsTheRulesSay : Prop :=
  ∀ s : State, (∀ r, step s ≠ .refused r) ∧
    ∀ f, step s = .fault f →
      (∃ off v rest, (s.inputs = .access (.regRead off) :: rest ∨ s.inputs = .access (.regWrite off v) :: rest) ∧
        ¬(off % 4 = 0 ∧ off < 0x20) ∧ f = .registerOffset off) ∨
      (∃ a v rest, (s.inputs = .access (.bufRead a) :: rest ∨ s.inputs = .access (.bufWrite a v) :: rest) ∧
        s.bufSize ≤ a ∧ f = .bufferAddress a) ∨
      (∃ a, f = .unwrittenRead a ∧ a < s.bufSize ∧ memRead s.buf a = none)

/-- With no input pending the block is idle (R21, R150): a step changes nothing. That it then answers a next state is
the model's choice (log entry 2). -/
def Obligations.IdleStepChangesNothing : Prop := ∀ s : State, s.inputs = [] → step s = .next s

/-- R157: a run that reaches its end has taken every pending input. -/
def Obligations.RunEndsWithNothingPending : Prop :=
  ∀ s t : State, s.runToEnd = .next t → t.inputs = []

/-! ### Host interface -/

/-- R24: a host write of `w` to CMD sets CMD and then executes `w`, including when `w` is illegal; a host read of CMD
returns that last word and starts nothing. -/
def Obligations.StepRunsDecodedCommand : Prop :=
  ∀ (s : State) (w : Word) (rest : List Input),
    (s.inputs = .access (.regWrite 0x04 w) :: rest →
      (∀ i, decode w = .ok i → step s = exec i { s with cmd := w, inputs := rest }) ∧
      (∀ e, decode w = .error e →
        step s = .next { s with cmd := w, inputs := rest, status := 0x00000001 })) ∧
    (s.inputs = .access (.regRead 0x04) :: rest →
      step s = .next { s with inputs := rest, replies := s.replies ++ [.word s.cmd] })

/-- R61, with the fields of R60 written out: the three illegal cases, and the command of each legal word. -/
def Obligations.CmdWriteSelectsCommand : Prop :=
  ∀ (s : State) (w : Word) (rest : List Input), s.inputs = .access (.regWrite 0x04 w) :: rest →
    let t : State := { s with cmd := w, inputs := rest }
    let opc := w.toNat % 2 ^ 8
    let imm8 := w.toNat / 2 ^ 8 % 2 ^ 8
    let rsvd := w.toNat / 2 ^ 16
    (rsvd ≠ 0 → step s = .next { t with status := 0x00000001 }) ∧
    (opc ∉ [0x01, 0x02, 0x03, 0x10, 0x11, 0x12, 0x20, 0x21] → step s = .next { t with status := 0x00000001 }) ∧
    (opc ≠ 0x02 → imm8 ≠ 0 → step s = .next { t with status := 0x00000001 }) ∧
    (rsvd = 0 → opc = 0x02 → step s = exec (.crcB (BitVec.ofNat 8 imm8)) t) ∧
    (rsvd = 0 → imm8 = 0 →
      (opc = 0x01 → step s = exec .crcClr t) ∧ (opc = 0x03 → step s = exec .crcBuf t) ∧
      (opc = 0x10 → step s = exec .stuff t) ∧ (opc = 0x11 → step s = exec .unstuff t) ∧
      (opc = 0x12 → step s = exec .unstuffC t) ∧ (opc = 0x20 → step s = exec .hexEnc t) ∧
      (opc = 0x21 → step s = exec .hexDec t))

/-- R33: a host read returns the register or the byte and changes no state of the block: only the operation is taken
and the host's reply added. -/
def Obligations.HostReadsChangeNothing : Prop :=
  ∀ (s : State) (rest : List Input), s.Inv →
    (∀ r, s.inputs = .access (.regRead (offsetOf r)) :: rest →
      step s = .next { s with
        inputs := rest,
        replies := s.replies ++ [.word (match r with
          | .param => BitVec.ofNat 32 (s.bufSize * 2 ^ 16 + 0xA6)
          | .cmd => s.cmd
          | .status => s.status
          | .crc => s.crc
          | .src => s.src
          | .dst => s.dst
          | .len => s.len
          | .next => s.next)] }) ∧
    (∀ a v, s.inputs = .access (.bufRead a) :: rest → a < s.bufSize → memRead s.buf a = some v →
      step s = .next { s with inputs := rest, replies := s.replies ++ [.byte v] })

/-- R31 and R32: in every state a bit outside a register's fields reads as 0; a host write of `w` to SRC, DST, LEN or
NEXT sets it to `zext_32(w[15:0])` and to CRC `zext_32(w[7:0])`, and a write to PARAM or STATUS changes no state. -/
def Obligations.RegisterFieldsReadAndWrite : Prop :=
  (∀ s : State, s.readReg .status &&& 0xFFFFFE00 = 0 ∧ s.readReg .crc &&& 0xFFFFFF00 = 0 ∧
    s.readReg .src &&& 0xFFFF0000 = 0 ∧ s.readReg .dst &&& 0xFFFF0000 = 0 ∧
    s.readReg .len &&& 0xFFFF0000 = 0 ∧ s.readReg .next &&& 0xFFFF0000 = 0) ∧
  ∀ (s : State) (w : Word) (rest : List Input) (r : RegName),
    s.inputs = .access (.regWrite (offsetOf r) w) :: rest →
    let t : State := { s with inputs := rest }
    (r = .param → step s = .next t) ∧ (r = .status → step s = .next t) ∧
    (r = .crc → step s = .next { t with crc := w &&& 0x000000FF }) ∧
    (r = .src → step s = .next { t with src := w &&& 0x0000FFFF }) ∧
    (r = .dst → step s = .next { t with dst := w &&& 0x0000FFFF }) ∧
    (r = .len → step s = .next { t with len := w &&& 0x0000FFFF }) ∧
    (r = .next → step s = .next { t with next := w &&& 0x0000FFFF })

/-- R23: PARAM's fields, that no step changes it, and that a write to it is ignored. -/
def Obligations.ParamIsConstant : Prop :=
  (∀ s : State, s.Inv → (s.readReg .param).toNat % 2 ^ 8 = 0xA6 ∧ (s.readReg .param).toNat / 2 ^ 8 % 2 ^ 8 = 0x00 ∧
    (s.readReg .param).toNat / 2 ^ 16 = s.bufSize) ∧
  (∀ s t : State, step s = .next t → t.readReg .param = s.readReg .param) ∧
  ∀ (s : State) (w : Word) (rest : List Input), s.inputs = .access (.regWrite 0x00 w) :: rest →
    step s = .next { s with inputs := rest }

/-- R41: RegRead and RegWrite at an offset that is not one of the eight are host access errors, and at one of the eight
they are not. -/
def Obligations.UnmappedOffsetIsHostAccessError : Prop :=
  ∀ (s : State) (off : Nat) (v : Word) (rest : List Input),
    s.inputs = .access (.regRead off) :: rest ∨ s.inputs = .access (.regWrite off v) :: rest →
    (off % 4 ≠ 0 ∨ 0x20 ≤ off → step s = .fault (.registerOffset off)) ∧
    (off % 4 = 0 → off < 0x20 → ∀ f, step s = .fault f → ∃ a, f = .unwrittenRead a)

/-- R42, R40, R35: BufRead and BufWrite outside BUF are host access errors; inside, a write sets its own byte and no
other, and a read of a byte nothing has written is a model fault. -/
def Obligations.BufferAccesses : Prop :=
  ∀ (s : State) (a : Nat) (v : Byte) (rest : List Input),
    (s.inputs = .access (.bufRead a) :: rest →
      (s.bufSize ≤ a → step s = .fault (.bufferAddress a)) ∧
      (a < s.bufSize → memRead s.buf a = none → step s = .fault (.unwrittenRead a))) ∧
    (s.inputs = .access (.bufWrite a v) :: rest →
      (s.bufSize ≤ a → step s = .fault (.bufferAddress a)) ∧
      (a < s.bufSize → ∃ m, step s = .next { s with buf := m, inputs := rest } ∧ memRead m a = some v ∧
        ∀ b, b ≠ a → memRead m b = memRead s.buf b))

/-- R49, R153: a read of a register or of a BUF byte right after a host write of it returns the value of that write: the
written field (R31), or for a read-only register its value as it was (R32). A write to CMD runs a command first;
StepRunsDecodedCommand says what a read of CMD returns. -/
def Obligations.NextReadSeesTheWrite : Prop :=
  ∀ (s : State) (rest : List Input),
    (∀ (r : RegName) (w : Word), r ≠ .cmd →
      s.inputs = .access (.regWrite (offsetOf r) w) :: .access (.regRead (offsetOf r)) :: rest →
      ∃ t, Host.Core.run Sys2Proof.core 2 s = .next t ∧ t.inputs = rest ∧ t.buf = s.buf ∧
        t.replies = s.replies ++ [.word (match r with
          | .param => s.readReg .param
          | .cmd => w
          | .status => s.readReg .status
          | .crc => w &&& 0x000000FF
          | .src => w &&& 0x0000FFFF
          | .dst => w &&& 0x0000FFFF
          | .len => w &&& 0x0000FFFF
          | .next => w &&& 0x0000FFFF)]) ∧
    ∀ (a : Nat) (v : Byte), a < s.bufSize →
      s.inputs = .access (.bufWrite a v) :: .access (.bufRead a) :: rest →
      ∃ t, Host.Core.run Sys2Proof.core 2 s = .next t ∧ t.inputs = rest ∧ t.replies = s.replies ++ [.byte v]

/-! ### Encoding -/

/-- R61, R67: decoding and encoding agree, in both directions: every command, with every immediate, decodes from its own
word, and a word that decodes to a command is that command's word. -/
def Obligations.DecodeEncodeAgree : Prop :=
  (∀ i : Instr, decode (encode i) = .ok i) ∧ ∀ (w : Word) (i : Instr), decode w = .ok i → encode i = w

/-- R64: a word that selects a row of the opcode map (`w & mask == match`) decodes to that row's command, with IMM8 =
w[15:8]; no word selects two rows; a word that selects none is illegal. -/
def Obligations.DecodeFollowsOpcodeMap : Prop :=
  ∀ w : Word,
    (∀ r ∈ opcodeMap, r.selects w → ∃ i, decode w = .ok i ∧ i.mnemonic = r.mnemonic ∧
      i.imm8 = BitVec.ofNat 8 (w.toNat / 2 ^ 8)) ∧
    (∀ r ∈ opcodeMap, ∀ r' ∈ opcodeMap, r.selects w → r'.selects w → r = r') ∧
    ((∀ r ∈ opcodeMap, r.selects w = false) → ∃ e, decode w = .error e)

/-- R65: a command word that matches no row of R64 raises ILLEGAL_CMD with no other effect; the zero word is one. -/
def Obligations.IllegalWordOnlySetsStatus : Prop :=
  (∀ r ∈ opcodeMap, r.selects 0x00000000 = false) ∧
  ∀ (s : State) (w : Word) (rest : List Input), s.inputs = .access (.regWrite 0x04 w) :: rest →
    (∀ r ∈ opcodeMap, r.selects w = false) →
    step s = .next { s with cmd := w, inputs := rest, status := 0x00000001 }

/-- R64, R67: words written out from the opcode map decode to their commands, and words of 95_test_vectors.md section 5
are illegal. -/
def Obligations.WordsWrittenOutDecode : Prop :=
  decode 0b00000000000000000000000000000001 = .ok .crcClr ∧
  decode 0b00000000000000000100000100000010 = .ok (.crcB 0x41) ∧
  decode 0b00000000000000000000000000000011 = .ok .crcBuf ∧
  decode 0b00000000000000000000000000010000 = .ok .stuff ∧
  decode 0b00000000000000000000000000010001 = .ok .unstuff ∧
  decode 0b00000000000000000000000000010010 = .ok .unstuffC ∧
  decode 0b00000000000000000000000000100000 = .ok .hexEnc ∧
  decode 0b00000000000000000000000000100001 = .ok .hexDec ∧
  decode 0x00000000 = .error .unknownOpcode ∧ decode 0x00000101 = .error .unusedImmediate ∧
  decode 0x00010002 = .error .reservedBits

/-- R67: a command line `M` stands for a write of `enc(M)` to CMD, and that step executes the command; so does the step
after `withFetchWord` gives the same word. -/
def Obligations.CommandLineRunsItsCommand : Prop :=
  ∀ (i : Instr) (s : State) (rest : List Input),
    (s.inputs = .access (commandOp i) :: rest → step s = exec i { s with cmd := encode i, inputs := rest }) ∧
    step (s.withFetchWord 32 (encode i).toNat) = exec i { s with cmd := encode i }

/-! ### CRC -/

/-- R87: `T[x] = crc_step(0x00, x)` for every byte x, T the table the spec prints; and law 1 of R82,
`crc_step(a, b) = T[a ^ b]`. -/
def Obligations.CrcStepMatchesPrintedTable : Prop :=
  ∀ a b : Byte, crcTable[(0x00 ^^^ b).toNat]? = some (crcStep 0x00 b) ∧
    crcTable[(a ^^^ b).toNat]? = some (crcStep a b)

/-- R83: CRC.CLR, word 0x00000001, in every state: ACC = 0x00, STATUS = OK, and nothing else changes. -/
def Obligations.CrcClrResult : Prop :=
  decode 0x00000001 = .ok .crcClr ∧
  ∀ s : State, exec .crcClr s = .next { s with crc := 0x00000000, status := 0x00000000 }

/-- R84: CRC.B, word `0x0000_ii02`, in every state and for every immediate: ACC <- crc_step(ACC, IMM8), bit 0 of ACC is
0, STATUS = OK, and nothing else changes. -/
def Obligations.CrcBResult : Prop :=
  (∀ b : Byte, decode ((0x0000 : Half) ++ b ++ (0x02 : Byte)) = .ok (.crcB b)) ∧
  ∀ (s : State) (b : Byte),
    exec (.crcB b) s = .next { s with
      crc := (crcStep (s.crc.extractLsb' 0 8) b).setWidth 32, status := 0x00000000 } ∧
    (crcStep (s.crc.extractLsb' 0 8) b).getLsbD 0 = false

/-- R85: CRC.BUF, word 0x00000003: RANGE with ACC unchanged; else ACC absorbs the bytes in increasing address order and nothing but ACC
and STATUS changes; the first byte of the range that nothing has written is a model fault (R35). -/
def Obligations.CrcBufResult : Prop :=
  decode 0x00000003 = .ok .crcBuf ∧
  ∀ s : State,
    (s.bufSize < s.srcAddr + s.lenBytes → exec .crcBuf s = .next { s with status := 0x00000002 }) ∧
    (s.srcAddr + s.lenBytes ≤ s.bufSize → ∀ xs : List Byte, xs.length = s.lenBytes → s.holds s.srcAddr xs →
      exec .crcBuf s = .next { s with
        crc := (xs.foldl crcStep (s.crc.extractLsb' 0 8)).setWidth 32, status := 0x00000000 }) ∧
    (s.srcAddr + s.lenBytes ≤ s.bufSize → ∀ j, j < s.lenBytes →
      (∀ i, i < j → memRead s.buf (s.srcAddr + i) ≠ none) → memRead s.buf (s.srcAddr + j) = none →
      exec .crcBuf s = .fault (.unwrittenRead (s.srcAddr + j)))

/-- R86: CRC.CLR followed by any split of `m` into consecutive parts, each absorbed by CRC.BUF or byte by byte with
CRC.B, leaves ACC = checksum(m), and BUF as it was. -/
def Obligations.AnySplitGivesChecksum : Prop :=
  ∀ (s : State) (ps : List AbsorbPart) (a : Nat), s.Inv →
    a + (ps.flatMap AbsorbPart.bytes).length ≤ s.bufSize → s.holds a (ps.flatMap AbsorbPart.bytes) →
    ∃ t u, exec .crcClr s = .next t ∧ absorb ps a t = .next u ∧
      u.acc = checksum (ps.flatMap AbsorbPart.bytes) ∧ u.status = 0x00000000 ∧ u.buf = s.buf

/-- R82, laws 3, 4 (first consequence) and 6: results are even, an error pattern 0xD3 or any bit shift of it is never
detected, leading zero bytes change nothing. -/
def Obligations.ChecksumEvenAndBlindTo0xD3 : Prop :=
  (∀ a b : Byte, (crcStep a b).getLsbD 0 = false ∧ crcStep a b = crcStep (a ^^^ 0xD3) b) ∧
  (∀ (m m' : List Byte) (a b : Byte) (k : Nat), k ≤ 8 →
    checksum (m ++ [a ^^^ (0x00D3#16 <<< k).extractLsb' 8 8, b ^^^ (0x00D3#16 <<< k).extractLsb' 0 8] ++ m') =
      checksum (m ++ [a, b] ++ m')) ∧
  ∀ (n : Nat) (m : List Byte), (checksum m).getLsbD 0 = false ∧ checksum (List.replicate n 0x00 ++ m) = checksum m

/-- R82, law 5: the checksum is linear over bytewise exclusive-or. -/
def Obligations.ChecksumIsLinear : Prop :=
  ∀ m m' : List Byte, m.length = m'.length →
    checksum (List.zipWith (· ^^^ ·) m m') = checksum m ^^^ checksum m'

/-- R82, laws 7 and 8: splitting, and the residue of a message with its checksum appended. -/
def Obligations.ChecksumSplitsAndLeavesNoResidue : Prop :=
  (∀ m m' : List Byte, checksum (m ++ m') = m'.foldl crcStep (checksum m)) ∧
  ∀ m : List Byte, checksum (m ++ [checksum m]) = 0x00

/-- R82, law 4: every single-bit error is detected, at any message length. -/
def Obligations.SingleBitErrorIsDetected : Prop :=
  ∀ (m m' : List Byte) (b : Byte) (k : Nat), k < 8 →
    checksum (m ++ [b ^^^ (1#8 <<< k)] ++ m') ≠ checksum (m ++ [b] ++ m')

/-- R82, law 4: two bit errors exactly 127 bit positions apart are never detected. Bit p of the message is bit 7 - p % 8
of byte p / 8, most significant first; the two errors stand 15 bytes and 7 bits apart. -/
def Obligations.BitErrors127ApartAreNotDetected : Prop :=
  ∀ (m m' gap : List Byte) (b c : Byte),
    (gap.length = 14 →
      checksum (m ++ [b ^^^ 0x80] ++ gap ++ [c ^^^ 0x01] ++ m') = checksum (m ++ [b] ++ gap ++ [c] ++ m')) ∧
    (gap.length = 15 → ∀ k, k < 7 →
      checksum (m ++ [b ^^^ (1#8 <<< k)] ++ gap ++ [c ^^^ (1#8 <<< (k + 1))] ++ m') =
        checksum (m ++ [b] ++ gap ++ [c] ++ m'))

/-- R82, law 2: reading the bytes as one bit string, most significant bit of m[0] first, as a polynomial M over GF(2),
`checksum(m) = (M * x^8) mod (x^8 + x^7 + x^5 + x^2 + x)`. -/
def Obligations.ChecksumIsPolynomialRemainder : Prop :=
  let bytePoly : Byte → Polynomial (ZMod 2) := fun b =>
    ∑ k ∈ Finset.range 8, if b.getLsbD k then Polynomial.X ^ k else 0
  let msgPoly : List Byte → Polynomial (ZMod 2) := fun m =>
    m.foldl (fun p b => p * Polynomial.X ^ 8 + bytePoly b) 0
  ∀ m : List Byte, bytePoly (checksum m) = (msgPoly m * Polynomial.X ^ 8) %ₘ
    (Polynomial.X ^ 8 + Polynomial.X ^ 7 + Polynomial.X ^ 5 + Polynomial.X ^ 2 + Polynomial.X)

/-- R69: the expansion of `CHECKSUM b, n` leaves in CRC.ACC the checksum of `BUF[b .. b+n-1]`. -/
def Obligations.ChecksumPseudoInstruction : Prop :=
  ∀ (s : State) (b n : Word) (ops : List HostOp) (rest : List Input) (xs : List Byte), s.Inv →
    expand (.checksum b n) = some ops → s.inputs = ops.map .access ++ rest →
    b.toNat + n.toNat ≤ s.bufSize → xs.length = n.toNat → s.holds b.toNat xs →
    ∃ t, Host.Core.run Sys2Proof.core 4 s = .next t ∧ t.acc = checksum xs ∧ t.status = 0x00000000 ∧
      t.inputs = rest ∧ t.buf = s.buf

/-! ### STF -/

/-- R90: STUFF, word 0x00000010: LENGTH, then RANGE, with BUF unchanged; else every anchor (index 0, and each index that held 0x00) that
has a sentinel after it holds the distance to the next one, and no other byte of BUF changes; BUF[SRC] need not have
been written; the first unwritten byte of the scan is a model fault (R35). -/
def Obligations.StuffWritesOffsets : Prop :=
  decode 0x00000010 = .ok .stuff ∧
  ∀ (s : State) (X : Nat → Byte),
    (256 < s.lenBytes → exec .stuff s = .next { s with status := 0x00000003 }) ∧
    (s.lenBytes ≤ 256 → s.bufSize < s.srcAddr + s.lenBytes →
      exec .stuff s = .next { s with status := 0x00000002 }) ∧
    (s.lenBytes ≤ 256 → s.srcAddr + s.lenBytes ≤ s.bufSize →
      (∀ i, 1 ≤ i → i < s.lenBytes → memRead s.buf (s.srcAddr + i) = some (X i)) →
      ∃ m, exec .stuff s = .next { s with buf := m, status := 0x00000000 } ∧
        (∀ i j, i < j → j < s.lenBytes → i = 0 ∨ X i = 0x00 → X j = 0x00 → (∀ k, i < k → k < j → X k ≠ 0x00) →
          memRead m (s.srcAddr + i) = some (BitVec.ofNat 8 (j - i))) ∧
        (∀ a, (∀ i j, i < j → j < s.lenBytes → i = 0 ∨ X i = 0x00 → X j = 0x00 → a ≠ s.srcAddr + i) →
          memRead m a = memRead s.buf a)) ∧
    (s.lenBytes ≤ 256 → s.srcAddr + s.lenBytes ≤ s.bufSize → ∀ j, 1 ≤ j → j < s.lenBytes →
      (∀ i, 1 ≤ i → i < j → memRead s.buf (s.srcAddr + i) ≠ none) → memRead s.buf (s.srcAddr + j) = none →
      exec .stuff s = .fault (.unwrittenRead (s.srcAddr + j)))

/-- R91: with a terminator at the end, after STUFF (a) the last byte is 0x00, (b) no byte before it is, and (c) the
indices that are 0 or held 0x00 form the offset chain, from index 0 to the terminator. Without one, the last sentinel
keeps 0x00 and the bytes after it are unchanged. -/
def Obligations.StuffedBufferIsAnOffsetChain : Prop :=
  ∀ (s : State) (X : Nat → Byte), 2 ≤ s.lenBytes → s.lenBytes ≤ 256 → s.srcAddr + s.lenBytes ≤ s.bufSize →
    (∀ i, 1 ≤ i → i < s.lenBytes → memRead s.buf (s.srcAddr + i) = some (X i)) →
    ∃ t, exec .stuff s = .next t ∧
      (X (s.lenBytes - 1) = 0x00 →
        memRead t.buf (s.srcAddr + (s.lenBytes - 1)) = some 0x00 ∧
        ∃ Y : Nat → Byte, (∀ i, i < s.lenBytes - 1 → memRead t.buf (s.srcAddr + i) = some (Y i) ∧ Y i ≠ 0x00) ∧
          ∃ vs, Hops Y s.lenBytes 0 vs (s.lenBytes - 1) ∧
            ∀ i, i ∈ vs ↔ i < s.lenBytes - 1 ∧ (i = 0 ∨ X i = 0x00)) ∧
      ∀ z, z < s.lenBytes → memRead s.buf (s.srcAddr + z) = some 0x00 →
        (∀ j, z < j → j < s.lenBytes → X j ≠ 0x00) →
        memRead t.buf (s.srcAddr + z) = some 0x00 ∧
        ∀ j, z < j → j < s.lenBytes → memRead t.buf (s.srcAddr + j) = some (X j)

/-- R92: the walk ends after at most LEN iterations (further tests of its condition change nothing), and how it ended
can be told from NEXT. -/
def Obligations.WalkEndsWithinLen : Prop :=
  ∀ (s : State) (next : Half) (m : Memory), s.bufSize ≤ 32768 → s.srcAddr + s.lenBytes ≤ s.bufSize →
    (∀ tests, s.lenBytes + 1 ≤ tests → walk tests s.srcAddr s.lenBytes next m = s.walkFrom next m) ∧
    ∀ e, s.walkFrom next m = .ok e → (e.term = true ↔ e.next.toNat < s.lenBytes) ∧ next.toNat ≤ e.next.toNat

/-- R94: UNSTUFF, word 0x00000011: LENGTH, then RANGE, with NEXT and BUF unchanged; else it follows the chain from the first anchor. -/
def Obligations.UnstuffFollowsChainFromFirstAnchor : Prop :=
  decode 0x00000011 = .ok .unstuff ∧
  ∀ s : State,
    (s.lenBytes = 0 → exec .unstuff s = .next { s with status := 0x00000003 }) ∧
    (s.lenBytes ≠ 0 → s.bufSize < s.srcAddr + s.lenBytes →
      exec .unstuff s = .next { s with status := 0x00000002 }) ∧
    (s.bufSize ≤ 32768 → s.lenBytes ≠ 0 → s.srcAddr + s.lenBytes ≤ s.bufSize → s.FollowsChain .unstuff 0)

/-- R95: UNSTUFF.C, word 0x00000012: RANGE with NEXT and BUF unchanged; else it follows the chain from NEXT, and with NEXT >= LEN
(LEN = 0 among them) nothing but STATUS changes. -/
def Obligations.UnstuffCFollowsChainFromNext : Prop :=
  decode 0x00000012 = .ok .unstuffC ∧
  ∀ s : State,
    (s.bufSize < s.srcAddr + s.lenBytes → exec .unstuffC s = .next { s with status := 0x00000002 }) ∧
    (s.bufSize ≤ 32768 → s.srcAddr + s.lenBytes ≤ s.bufSize → s.FollowsChain .unstuffC s.nextIndex.toNat) ∧
    (s.Inv → s.srcAddr + s.lenBytes ≤ s.bufSize → s.lenBytes ≤ s.nextIndex.toNat →
      exec .unstuffC s = .next { s with status := 0x00000000 })

/-- R96: UNSTUFF with LEN = k, then UNSTUFF.C with LEN = n, leaves exactly what one UNSTUFF with LEN = n leaves; and
where the first part meets a model fault, so does the whole. -/
def Obligations.IncrementalUnstuffIsExact : Prop :=
  ∀ (s : State) (k n : Nat), s.Inv → 1 ≤ k → k ≤ n → s.srcAddr + n ≤ s.bufSize →
    (∀ t, exec .unstuff { s with len := BitVec.ofNat 32 k } = .next t →
      exec .unstuffC { t with len := BitVec.ofNat 32 n } = exec .unstuff { s with len := BitVec.ofNat 32 n }) ∧
    ∀ f, exec .unstuff { s with len := BitVec.ofNat 32 k } = .fault f →
      exec .unstuff { s with len := BitVec.ofNat 32 n } = .fault f

/-- R97: for every byte sequence X of length 1 to 256 with X[0] = 0x00, STUFF then UNSTUFF restore BUF, and end with
TERM = 1 and NEXT = the largest index z with X[z] = 0x00. With X[0] ≠ 0x00 index 0 ends as 0x00 instead, and without a
0x00 at an index >= 1 the walk starts from X[0], which STUFF leaves as it was. -/
def Obligations.StuffUnstuffRoundTrip : Prop :=
  ∀ (s : State) (X : List Byte), s.Inv → 1 ≤ X.length → X.length ≤ 256 → s.lenBytes = X.length →
    s.srcAddr + X.length ≤ s.bufSize → s.holds s.srcAddr X →
    ∃ t, exec .stuff s = .next t ∧
      (X[0]? = some 0x00 → ∃ z, z < X.length ∧ X[z]? = some 0x00 ∧
        (∀ j, z < j → j < X.length → X[j]? ≠ some 0x00) ∧
        exec .unstuff t = .next { s with next := BitVec.ofNat 32 z, status := 0x00000100 }) ∧
      (X[0]? ≠ some 0x00 → ∃ u, exec .unstuff t = .next u ∧ memRead u.buf s.srcAddr = some 0x00 ∧
        ((∀ j, 1 ≤ j → X[j]? ≠ some 0x00) → t.buf = s.buf))

/-! ### HEX -/

/-- R110: `digit` and `hexval`, with the character codes of R111 written out. -/
def Obligations.HexDigitsAreAscii : Prop :=
  (∀ v : Nibble, (hexDigit v).toNat = if v.toNat ≤ 9 then 0x30 + v.toNat else 0x41 + (v.toNat - 10)) ∧
  ∀ (c : Byte) (v : Nibble), hexVal c = some v ↔
    (v.toNat ≤ 9 ∧ c.toNat = 0x30 + v.toNat) ∨
    (10 ≤ v.toNat ∧ (c.toNat = 0x41 + (v.toNat - 10) ∨ c.toNat = 0x61 + (v.toNat - 10)))

/-- R112: HEX.ENC, word 0x00000020: RANGE, then OVERLAP, with nothing written; else two uppercase digits per byte, high nibble first, at
DST, and no other byte changes; the first unwritten byte of the source is a model fault (R35). -/
def Obligations.HexEncResult : Prop :=
  decode 0x00000020 = .ok .hexEnc ∧
  ∀ s : State,
    (s.bufSize < s.srcAddr + s.lenBytes ∨ s.bufSize < s.dstAddr + 2 * s.lenBytes →
      exec .hexEnc s = .next { s with status := 0x00000002 }) ∧
    (s.srcAddr + s.lenBytes ≤ s.bufSize → s.dstAddr + 2 * s.lenBytes ≤ s.bufSize →
      (0 < s.lenBytes ∧ s.srcAddr < s.dstAddr + 2 * s.lenBytes ∧ s.dstAddr < s.srcAddr + s.lenBytes →
        exec .hexEnc s = .next { s with status := 0x00000005 }) ∧
      (¬(0 < s.lenBytes ∧ s.srcAddr < s.dstAddr + 2 * s.lenBytes ∧ s.dstAddr < s.srcAddr + s.lenBytes) →
        (∀ xs : List Byte, xs.length = s.lenBytes → s.holds s.srcAddr xs →
          ∃ m, exec .hexEnc s = .next { s with buf := m, status := 0x00000000 } ∧
            (∀ i b, xs[i]? = some b →
              memRead m (s.dstAddr + 2 * i) = some (hexDigit (BitVec.ofNat 4 (b.toNat / 16))) ∧
              memRead m (s.dstAddr + 2 * i + 1) = some (hexDigit (BitVec.ofNat 4 (b.toNat % 16)))) ∧
            ∀ a, a < s.dstAddr ∨ s.dstAddr + 2 * s.lenBytes ≤ a → memRead m a = memRead s.buf a) ∧
        (∀ j, j < s.lenBytes → (∀ i, i < j → memRead s.buf (s.srcAddr + i) ≠ none) →
          memRead s.buf (s.srcAddr + j) = none → exec .hexEnc s = .fault (.unwrittenRead (s.srcAddr + j)))))

/-- R113: HEX.DEC, word 0x00000021: RANGE, then OVERLAP; else with 2 x LEN valid characters one byte per pair at DST and no other byte
changed; an invalid character raises ILLEGAL_HEX with nothing written, whatever stands after it; the first unwritten
character before any invalid one is a model fault (R35). -/
def Obligations.HexDecResult : Prop :=
  decode 0x00000021 = .ok .hexDec ∧
  ∀ s : State,
    (s.bufSize < s.srcAddr + 2 * s.lenBytes ∨ s.bufSize < s.dstAddr + s.lenBytes →
      exec .hexDec s = .next { s with status := 0x00000002 }) ∧
    (s.srcAddr + 2 * s.lenBytes ≤ s.bufSize → s.dstAddr + s.lenBytes ≤ s.bufSize →
      (0 < s.lenBytes ∧ s.srcAddr < s.dstAddr + s.lenBytes ∧ s.dstAddr < s.srcAddr + 2 * s.lenBytes →
        exec .hexDec s = .next { s with status := 0x00000005 }) ∧
      (¬(0 < s.lenBytes ∧ s.srcAddr < s.dstAddr + s.lenBytes ∧ s.dstAddr < s.srcAddr + 2 * s.lenBytes) →
        (∀ V : Nat → Nibble,
          (∀ j, j < 2 * s.lenBytes → ∃ c, memRead s.buf (s.srcAddr + j) = some c ∧ hexVal c = some (V j)) →
          ∃ m, exec .hexDec s = .next { s with buf := m, status := 0x00000000 } ∧
            (∀ i, i < s.lenBytes → memRead m (s.dstAddr + i) =
              some (BitVec.ofNat 8 (16 * (V (2 * i)).toNat + (V (2 * i + 1)).toNat))) ∧
            ∀ a, a < s.dstAddr ∨ s.dstAddr + s.lenBytes ≤ a → memRead m a = memRead s.buf a) ∧
        (∀ j, j < 2 * s.lenBytes →
          (∀ i, i < j → ∃ c v, memRead s.buf (s.srcAddr + i) = some c ∧ hexVal c = some v) →
          (∀ c, memRead s.buf (s.srcAddr + j) = some c → hexVal c = none →
            exec .hexDec s = .next { s with status := 0x00000004 }) ∧
          (memRead s.buf (s.srcAddr + j) = none →
            exec .hexDec s = .fault (.unwrittenRead (s.srcAddr + j))))))

/-- R114: `overlap` says that the two ranges share an address; HEX.ENC and HEX.DEC raise OVERLAP then, after RANGE and
before any read. -/
def Obligations.OverlapMeansASharedAddress : Prop :=
  (∀ a na b nb : Nat, overlap a na b nb = true ↔ ∃ x, a ≤ x ∧ x < a + na ∧ b ≤ x ∧ x < b + nb) ∧
  ∀ s : State,
    (s.srcAddr + s.lenBytes ≤ s.bufSize → s.dstAddr + 2 * s.lenBytes ≤ s.bufSize →
      overlap s.srcAddr s.lenBytes s.dstAddr (2 * s.lenBytes) = true →
      exec .hexEnc s = .next { s with status := 0x00000005 }) ∧
    (s.srcAddr + 2 * s.lenBytes ≤ s.bufSize → s.dstAddr + s.lenBytes ≤ s.bufSize →
      overlap s.srcAddr (2 * s.lenBytes) s.dstAddr s.lenBytes = true →
      exec .hexDec s = .next { s with status := 0x00000005 })

/-- R115: HEX.ENC then HEX.DEC of the result gives the bytes back; HEX.DEC of valid digits then HEX.ENC of the result
gives the digits in uppercase. -/
def Obligations.HexRoundTrips : Prop :=
  ∀ (s : State) (n e : Nat), s.Inv → s.lenBytes = n →
    (∀ B : List Byte, B.length = n → s.holds s.srcAddr B → s.srcAddr + n ≤ s.bufSize →
      s.dstAddr + 2 * n ≤ s.bufSize → e + n ≤ s.bufSize → overlap s.srcAddr n s.dstAddr (2 * n) = false →
      overlap s.dstAddr (2 * n) e n = false →
      ∃ t u, exec .hexEnc s = .next t ∧
        exec .hexDec { t with src := t.dst, dst := BitVec.ofNat 32 e } = .next u ∧
        u.status = 0x00000000 ∧ u.holds e B) ∧
    (∀ S : List Byte, S.length = 2 * n → s.holds s.srcAddr S → (∀ c ∈ S, hexVal c ≠ none) →
      s.srcAddr + 2 * n ≤ s.bufSize → s.dstAddr + n ≤ s.bufSize → e + 2 * n ≤ s.bufSize →
      overlap s.srcAddr (2 * n) s.dstAddr n = false → overlap s.dstAddr n e (2 * n) = false →
      ∃ t u, exec .hexDec s = .next t ∧
        exec .hexEnc { t with src := t.dst, dst := BitVec.ofNat 32 e } = .next u ∧
        u.status = 0x00000000 ∧ u.holds e (S.map upperHex))

/-! ### The whole block -/

/-- R132: a command that fails (ERRCODE is not OK after the CMD write) changes nothing but STATUS, and CMD, which the
write itself set; TERM is 0. -/
def Obligations.FailedCommandChangesOnlyStatus : Prop :=
  ∀ (s t : State) (w : Word) (rest : List Input), s.inputs = .access (.regWrite 0x04 w) :: rest →
    step s = .next t → t.errcode ≠ 0 →
    t = { s with cmd := w, inputs := rest, status := t.status } ∧ t.term = false

/-- R133: the error a command reports is the first of ILLEGAL_CMD, LENGTH, RANGE, OVERLAP, ILLEGAL_HEX that applies. -/
def Obligations.FirstErrorInPriorityIsReported : Prop :=
  (∀ (s : State) (w : Word) (rest : List Input) (e : IllegalWord), s.inputs = .access (.regWrite 0x04 w) :: rest →
    decode w = .error e → step s = .next { s with cmd := w, inputs := rest, status := 0x00000001 }) ∧
  ∀ (s : State) (i : Instr),
    (LengthFails s i → exec i s = .next { s with status := 0x00000003 }) ∧
    (¬LengthFails s i → RangeFails s i → exec i s = .next { s with status := 0x00000002 }) ∧
    (¬LengthFails s i → ¬RangeFails s i → OverlapFails s i →
      exec i s = .next { s with status := 0x00000005 }) ∧
    (¬LengthFails s i → ¬RangeFails s i → ¬OverlapFails s i → ∀ t, exec i s = .next t →
      t.errcode = 0 ∨
      (t.errcode = 4 ∧ i = .hexDec ∧ ∃ j c, j < 2 * s.lenBytes ∧ memRead s.buf (s.srcAddr + j) = some c ∧
        hexVal c = none ∧ ∀ k, k < j → ∃ d v, memRead s.buf (s.srcAddr + k) = some d ∧ hexVal d = some v))

/-- R25, R130: after any CMD write STATUS is OK or one of the error codes with TERM = 0, or OK with TERM = 1 after UNSTUFF
or UNSTUFF.C; and each error comes from the commands R130 lists for it. -/
def Obligations.StatusDescribesTheLastCommand : Prop :=
  ∀ (s t : State) (w : Word) (rest : List Input), s.inputs = .access (.regWrite 0x04 w) :: rest →
    step s = .next t →
    LegalStatus t.status ∧
    (t.term = true → decode w = .ok .unstuff ∨ decode w = .ok .unstuffC) ∧
    (t.errcode = 1 ↔ ∃ e, decode w = .error e) ∧
    (t.errcode = 2 → ∃ i, decode w = .ok i ∧ i ∈ [.crcBuf, .stuff, .unstuff, .unstuffC, .hexEnc, .hexDec]) ∧
    (t.errcode = 3 → decode w = .ok .stuff ∨ decode w = .ok .unstuff) ∧
    (t.errcode = 4 → decode w = .ok .hexDec) ∧
    (t.errcode = 5 → decode w = .ok .hexEnc ∨ decode w = .ok .hexDec)

/-- R34: every command writes both flags whatever they were, and no command reads them; after reset both are 0. -/
def Obligations.NoCommandReadsStatus : Prop :=
  (∀ (i : Instr) (s : State) (w : Word), exec i { s with status := w } = exec i s) ∧
  State.reset.errcode = 0 ∧ State.reset.term = false

/-- R63: which registers each command reads and writes. Two states that agree on what a command reads (and on BUF_SIZE)
get the same values in what it writes, or the same model fault; nothing else changes in either. -/
def Obligations.CommandsReadAndWriteTheirOwnRegisters : Prop :=
  (∀ s, ∃ c st, ∀ s' : State,
    exec .crcClr s = .next { s with crc := c, status := st } ∧
    exec .crcClr s' = .next { s' with crc := c, status := st }) ∧
  ∀ s s' : State,
    (∀ b, s.acc = s'.acc → ∃ c st, exec (.crcB b) s = .next { s with crc := c, status := st } ∧
      exec (.crcB b) s' = .next { s' with crc := c, status := st }) ∧
    (s.bufSize = s'.bufSize → s.buf = s'.buf → s.srcAddr = s'.srcAddr → s.lenBytes = s'.lenBytes →
      (s.acc = s'.acc →
        (∃ c st, exec .crcBuf s = .next { s with status := st } ∧ exec .crcBuf s' = .next { s' with status := st } ∨
          exec .crcBuf s = .next { s with crc := c, status := st } ∧
          exec .crcBuf s' = .next { s' with crc := c, status := st }) ∨
        ∃ f, exec .crcBuf s = .fault f ∧ exec .crcBuf s' = .fault f) ∧
      ((∃ m st, exec .stuff s = .next { s with buf := m, status := st } ∧
          exec .stuff s' = .next { s' with buf := m, status := st }) ∨
        ∃ f, exec .stuff s = .fault f ∧ exec .stuff s' = .fault f) ∧
      ((∃ m n st, exec .unstuff s = .next { s with status := st } ∧ exec .unstuff s' = .next { s' with status := st } ∨
          exec .unstuff s = .next { s with buf := m, next := n, status := st } ∧
          exec .unstuff s' = .next { s' with buf := m, next := n, status := st }) ∨
        ∃ f, exec .unstuff s = .fault f ∧ exec .unstuff s' = .fault f) ∧
      (s.nextIndex = s'.nextIndex →
        (∃ m n st, exec .unstuffC s = .next { s with status := st } ∧
            exec .unstuffC s' = .next { s' with status := st } ∨
          exec .unstuffC s = .next { s with buf := m, next := n, status := st } ∧
          exec .unstuffC s' = .next { s' with buf := m, next := n, status := st }) ∨
        ∃ f, exec .unstuffC s = .fault f ∧ exec .unstuffC s' = .fault f) ∧
      (s.dstAddr = s'.dstAddr → ∀ i, i = .hexEnc ∨ i = .hexDec →
        (∃ m st, exec i s = .next { s with buf := m, status := st } ∧
          exec i s' = .next { s' with buf := m, status := st }) ∨
        ∃ f, exec i s = .fault f ∧ exec i s' = .fault f))

/-- The frame of every command (R26 to R30, R63, and each command's rule): no command changes CMD, SRC, DST, LEN, BUF_SIZE
or the host's side; only the CRC commands change CRC, only UNSTUFF and UNSTUFF.C change NEXT; the CRC commands store
nothing; the others store inside their destination range (`storesAt`) only. -/
def Obligations.CommandFrames : Prop :=
  ∀ (i : Instr) (s t : State), exec i s = .next t →
    t.cmd = s.cmd ∧ t.src = s.src ∧ t.dst = s.dst ∧ t.len = s.len ∧ t.bufSize = s.bufSize ∧
    t.inputs = s.inputs ∧ t.replies = s.replies ∧
    (i ∈ [.stuff, .unstuff, .unstuffC, .hexEnc, .hexDec] → t.crc = s.crc) ∧
    (i ≠ .unstuff → i ≠ .unstuffC → t.next = s.next) ∧
    ∀ a, a < (storesAt s i).1 ∨ (storesAt s i).1 + (storesAt s i).2 ≤ a → memRead t.buf a = memRead s.buf a
end

