-- ==== Sys2Proof/Laws/Fields.lean ====
section
/-! SUPPORT. The laws of register fields, STATUS words, register offsets and command-word fields. -/

namespace Sys2Proof.Machine

@[simp] theorem lowHalf_zextHalf (h : Half) : lowHalf (zextHalf h) = h := by
  apply BitVec.eq_of_toNat_eq
  have := h.isLt
  simp [lowHalf, zextHalf]
  omega

@[simp] theorem lowByte_zextByte (b : Byte) : lowByte (zextByte b) = b := by
  apply BitVec.eq_of_toNat_eq
  have := b.isLt
  simp [lowByte, zextByte]
  omega

theorem zextHalf_lowHalf_toNat (w : Word) : (zextHalf (lowHalf w)).toNat = w.toNat % 2 ^ 16 := by
  simp [zextHalf, lowHalf]
  omega

theorem zextByte_lowByte_toNat (w : Word) : (zextByte (lowByte w)).toNat = w.toNat % 2 ^ 8 := by
  simp [zextByte, lowByte]
  omega

/-- A register whose bits above the field are 0 is its field, zero extended. -/
theorem zextHalf_lowHalf {w : Word} (h : w.toNat < 2 ^ 16) : zextHalf (lowHalf w) = w := by
  apply BitVec.eq_of_toNat_eq
  rw [zextHalf_lowHalf_toNat, Nat.mod_eq_of_lt h]

theorem zextByte_lowByte {w : Word} (h : w.toNat < 2 ^ 8) : zextByte (lowByte w) = w := by
  apply BitVec.eq_of_toNat_eq
  rw [zextByte_lowByte_toNat, Nat.mod_eq_of_lt h]

theorem zextHalf_toNat (h : Half) : (zextHalf h).toNat = h.toNat := by
  have := h.isLt
  simp [zextHalf]
  omega

theorem zextHalf_lt (h : Half) : (zextHalf h).toNat < 2 ^ 16 := by
  rw [zextHalf_toNat]; exact h.isLt

theorem zextByte_lt (b : Byte) : (zextByte b).toNat < 2 ^ 8 := by
  have := b.isLt
  simp [zextByte]
  omega

theorem lowHalf_ofNat (n : Nat) : (lowHalf (BitVec.ofNat 32 n)).toNat = n % 2 ^ 16 := by
  simp [lowHalf]

theorem zextHalf_eq_ofNat (h : Half) : zextHalf h = BitVec.ofNat 32 h.toNat := by
  apply BitVec.eq_of_toNat_eq
  have := h.isLt
  rw [zextHalf_toNat, BitVec.toNat_ofNat, Nat.mod_eq_of_lt (by omega)]

theorem srcAddr_lt (s : State) : s.srcAddr < 2 ^ 16 := (lowHalf s.src).isLt

theorem dstAddr_lt (s : State) : s.dstAddr < 2 ^ 16 := (lowHalf s.dst).isLt

theorem lenBytes_lt (s : State) : s.lenBytes < 2 ^ 16 := (lowHalf s.len).isLt

/-! STATUS words -/

theorem statusWord_ok_false : statusWord okCode false = 0x00000000 := by decide

theorem statusWord_ok_true : statusWord okCode true = 0x00000100 := by decide

@[simp] theorem lowByte_statusWord (c : Byte) (t : Bool) : lowByte (statusWord c t) = c := by
  revert c t; decide

@[simp] theorem statusWord_term (c : Byte) (t : Bool) : (statusWord c t)[8] = t := by
  revert c t; decide

theorem getLsbD_statusWord (c : Byte) (t : Bool) : (statusWord c t).getLsbD 8 = t := by
  revert c t; decide

/-! Register offsets -/

/-- R41: the eight offsets are those of the eight registers. -/
@[simp] theorem regAt_offsetOf (r : RegName) : regAt (offsetOf r) = some r := by cases r <;> rfl

theorem offsetOf_of_regAt {off : Nat} {r : RegName} (h : regAt off = some r) : off = offsetOf r := by
  unfold regAt at h
  repeat' split at h
  all_goals first | (cases h; assumption) | cases h

theorem regAt_eq_none_iff {off : Nat} : regAt off = none ↔ off % 4 ≠ 0 ∨ 0x20 ≤ off := by
  unfold regAt
  constructor
  · intro h
    repeat' split at h
    all_goals first | omega | cases h
  · intro h
    repeat' split
    all_goals first | rfl | omega

/-! Range tests -/

theorem rangeInside_iff {s : State} {b n : Nat} : s.rangeInside b n = true ↔ b + n ≤ s.bufSize := by
  simp [State.rangeInside]

theorem overlap_iff {a na b nb : Nat} :
    overlap a na b nb = true ↔ 0 < na ∧ 0 < nb ∧ a < b + nb ∧ b < a + na := by
  simp [overlap]

end Sys2Proof.Machine

namespace Sys2Proof

/-- Bit `k` of a command word: OPC, then IMM8, then zeros (R60). -/
theorem encode_getLsbD (i : Instr) (k : Nat) : (encode i).getLsbD k =
    if k < 8 then i.opc.getLsbD k else if k < 16 then i.imm8.getLsbD (k - 8) else false := by
  have h : (encode i).getLsbD k = ((0 : Half) ++ i.imm8 ++ i.opc : BitVec (16 + 8 + 8)).getLsbD k := rfl
  rw [h, BitVec.getLsbD_append, BitVec.getLsbD_append]
  by_cases h1 : k < 8
  · simp [h1]
  · by_cases h2 : k < 16
    · have : k - 8 < 8 := by omega
      simp [h1, h2, this]
    · have : ¬ k - 8 < 8 := by omega
      simp [h1, h2, this]

theorem opcField_encode (i : Instr) : opcField (encode i) = i.opc := by
  apply BitVec.eq_of_getLsbD_eq
  intro k hk
  simp [opcField, encode_getLsbD, hk]

theorem imm8Field_encode (i : Instr) : imm8Field (encode i) = i.imm8 := by
  apply BitVec.eq_of_getLsbD_eq
  intro k hk
  have : 8 + k < 16 := by omega
  simp [imm8Field, encode_getLsbD, hk, this]

theorem rsvdField_encode (i : Instr) : rsvdField (encode i) = 0 := by
  apply BitVec.eq_of_getLsbD_eq
  intro k hk
  have h1 : ¬ 16 + k < 8 := by omega
  simp [rsvdField, encode_getLsbD, hk, h1]

/-- A word is its three fields. -/
theorem word_of_fields (w : Word) : rsvdField w ++ imm8Field w ++ opcField w = w := by
  apply BitVec.eq_of_getLsbD_eq
  intro k hk
  simp only [BitVec.getLsbD_append, rsvdField, imm8Field, opcField, BitVec.getLsbD_extractLsb']
  by_cases h1 : k < 8
  · simp [h1]
  · by_cases h2 : k - 8 < 8
    · have : 8 + (k - 8) = k := by omega
      simp [h1, h2, this]
    · have : 16 + (k - 8 - 8) = k := by omega
      have h3 : k - 8 - 8 < 16 := by omega
      simp [h1, h2, h3, this]

end Sys2Proof
end

