-- ==== Sys2Proof/Laws/Memory.lean ====
section
/-! SUPPORT. The laws of BUF: a read after a write, the canonical form kept by every operation, and that memories in
canonical form are equal when every read is. -/

namespace Sys2Proof.Machine

@[simp] theorem memRead_nil (a : Nat) : memRead [] a = none := rfl

theorem memRead_cons (k : Nat) (v : Byte) (m : Memory) (a : Nat) :
    memRead ((k, v) :: m) a = if a = k then some v else memRead m a := rfl

theorem memRead_memWrite (m : Memory) (a : Nat) (v : Byte) (b : Nat) :
    memRead (memWrite m a v) b = if b = a then some v else memRead m b := by
  induction m with
  | nil => rfl
  | cons c m ih =>
    obtain ⟨k, w⟩ := c
    simp only [memWrite]
    split
    · simp [memRead_cons]
    · split
      · subst_vars
        by_cases hb : b = k <;> simp [memRead_cons, hb]
      · by_cases hb : b = k
        · subst hb
          simp [memRead_cons, Ne.symm ‹¬ a = b›]
        · simp [memRead_cons, hb, ih]

@[simp] theorem memRead_memWrite_same (m : Memory) (a : Nat) (v : Byte) : memRead (memWrite m a v) a = some v := by
  simp [memRead_memWrite]

theorem memRead_memWrite_other (m : Memory) (a : Nat) (v : Byte) {b : Nat} (h : b ≠ a) :
    memRead (memWrite m a v) b = memRead m b := by
  simp [memRead_memWrite, h]

theorem memRead_eq_none_of_lt {m : Memory} {a : Nat} (h : ∀ c ∈ m, a < c.1) : memRead m a = none := by
  induction m with
  | nil => rfl
  | cons c m ih =>
    obtain ⟨k, w⟩ := c
    have hk : a < k := h (k, w) (by simp)
    rw [memRead_cons, if_neg (by omega)]
    exact ih fun c hc => h c (by simp [hc])

theorem memRead_isSome_of_mem {m : Memory} {c : Host.Cell} (h : c ∈ m) : ∃ v, memRead m c.1 = some v := by
  induction m with
  | nil => cases h
  | cons d m ih =>
    obtain ⟨k, w⟩ := d
    rw [memRead_cons]
    split
    · exact ⟨w, rfl⟩
    · rcases List.mem_cons.1 h with rfl | h
      · exact absurd rfl ‹_›
      · exact ih h

theorem mem_of_memRead {m : Memory} {a : Nat} {v : Byte} (h : memRead m a = some v) : (a, v) ∈ m := by
  induction m with
  | nil => cases h
  | cons d m ih =>
    obtain ⟨k, w⟩ := d
    rw [memRead_cons] at h
    split at h
    · cases h; subst_vars; simp
    · simp [ih h]

theorem memWrite_mem {m : Memory} {a : Nat} {v : Byte} {c : Host.Cell} (h : c ∈ memWrite m a v) :
    c = (a, v) ∨ c ∈ m := by
  induction m with
  | nil => simpa [memWrite] using h
  | cons d m ih =>
    obtain ⟨k, w⟩ := d
    simp only [memWrite] at h
    split at h
    · simpa using h
    · split at h
      · rcases List.mem_cons.1 h with h | h <;> simp [h]
      · rcases List.mem_cons.1 h with h | h
        · simp [h]
        · rcases ih h with h | h <;> simp [h]

/-- A write keeps the canonical form. -/
theorem memWrite_wf {m : Memory} (h : Memory.wf m) (a : Nat) (v : Byte) : Memory.wf (memWrite m a v) := by
  induction m with
  | nil => simp [memWrite, Memory.wf]
  | cons d m ih =>
    obtain ⟨k, w⟩ := d
    have hm : Memory.wf m := (List.pairwise_cons.1 h).2
    have hk : ∀ c ∈ m, k < c.1 := (List.pairwise_cons.1 h).1
    simp only [memWrite]
    split
    · refine List.pairwise_cons.2 ⟨fun c hc => ?_, h⟩
      rcases List.mem_cons.1 hc with rfl | hc
      · assumption
      · exact Nat.lt_trans ‹_› (hk c hc)
    · split
      · subst_vars
        exact List.pairwise_cons.2 ⟨hk, hm⟩
      · refine List.pairwise_cons.2 ⟨fun c hc => ?_, ih hm⟩
        rcases memWrite_mem hc with rfl | hc
        · show k < a
          omega
        · exact hk c hc

theorem memWrite_within {m : Memory} {n a : Nat} (h : Memory.within n m) (ha : a < n) (v : Byte) :
    Memory.within n (memWrite m a v) := by
  intro c hc
  rcases memWrite_mem hc with rfl | hc
  · exact ha
  · exact h c hc

theorem memRead_lt_of_within {m : Memory} {n a : Nat} {v : Byte} (h : Memory.within n m)
    (hr : memRead m a = some v) : a < n :=
  h _ (mem_of_memRead hr)

/-- Memories in canonical form are equal when every read of them is. -/
theorem memory_ext {m m' : Memory} (h : Memory.wf m) (h' : Memory.wf m')
    (hr : ∀ a, memRead m a = memRead m' a) : m = m' := by
  induction m generalizing m' with
  | nil =>
    cases m' with
    | nil => rfl
    | cons d m' =>
      obtain ⟨l, w⟩ := d
      simpa [memRead_cons] using hr l
  | cons c m ih =>
    obtain ⟨k, v⟩ := c
    have hk : ∀ c ∈ m, k < c.1 := (List.pairwise_cons.1 h).1
    cases m' with
    | nil => simpa [memRead_cons] using hr k
    | cons d m' =>
      obtain ⟨l, w⟩ := d
      have hl : ∀ c ∈ m', l < c.1 := (List.pairwise_cons.1 h').1
      have hkl : k = l := by
        rcases Nat.lt_trichotomy k l with hlt | heq | hgt
        · have := hr k
          rw [memRead_cons, if_pos rfl, memRead_cons, if_neg (by omega),
            memRead_eq_none_of_lt fun c hc => Nat.lt_trans hlt (hl c hc)] at this
          cases this
        · exact heq
        · have := hr l
          rw [memRead_cons, if_neg (by omega), memRead_cons, if_pos rfl,
            memRead_eq_none_of_lt fun c hc => Nat.lt_trans hgt (hk c hc)] at this
          cases this
      subst hkl
      have hv : v = w := by simpa [memRead_cons] using hr k
      subst hv
      congr 1
      refine ih (List.pairwise_cons.1 h).2 (List.pairwise_cons.1 h').2 fun a => ?_
      have := hr a
      rw [memRead_cons, memRead_cons] at this
      split at this
      · subst_vars
        rw [memRead_eq_none_of_lt hk, memRead_eq_none_of_lt hl]
      · exact this

/-- Writing what a byte already holds changes nothing. -/
theorem memWrite_eq_self {m : Memory} (h : Memory.wf m) {a : Nat} {v : Byte} (hr : memRead m a = some v) :
    memWrite m a v = m :=
  memory_ext (memWrite_wf h a v) h fun b => by
    rw [memRead_memWrite]
    split
    · subst_vars; exact hr.symm
    · rfl

/-- `load` answers the byte, or faults on a byte that nothing has written. -/
theorem load_eq_ok {m : Memory} {a : Nat} {v : Byte} : load m a = .ok v ↔ memRead m a = some v := by
  unfold load
  cases memRead m a <;> simp

theorem load_eq_error {m : Memory} {a : Nat} {f : Fault} :
    load m a = .error f ↔ memRead m a = none ∧ f = .unwrittenRead a := by
  unfold load
  cases memRead m a <;> simp [eq_comm]

theorem load_of_some {m : Memory} {a : Nat} {v : Byte} (h : memRead m a = some v) : load m a = .ok v :=
  load_eq_ok.2 h

theorem load_of_none {m : Memory} {a : Nat} (h : memRead m a = none) : load m a = .error (.unwrittenRead a) :=
  load_eq_error.2 ⟨h, rfl⟩

/-- `finish` answers the state a result leads to, or the fault it met; it never refuses. -/
@[simp] theorem finish_ok {α : Type} (x : α) (k : α → State) : finish (.ok x) k = .next (k x) := rfl

@[simp] theorem finish_error {α : Type} (f : Fault) (k : α → State) : finish (.error f) k = .fault f := rfl

theorem finish_eq_next {α : Type} {r : Except Fault α} {k : α → State} {t : State} :
    finish r k = .next t ↔ ∃ x, r = .ok x ∧ k x = t := by
  cases r <;> simp

theorem finish_eq_fault {α : Type} {r : Except Fault α} {k : α → State} {f : Fault} :
    finish r k = .fault f ↔ r = .error f := by
  cases r <;> simp

theorem finish_ne_refused {α : Type} {r : Except Fault α} {k : α → State} {x : Refusal} :
    finish r k ≠ .refused x := by
  cases r <;> simp

end Sys2Proof.Machine
end

