-- ==== Sys2Proof/Laws/Stuffing.lean ====
section
/-! SUPPORT. The STF unit: everything STUFF's loop and the chain walk can do. -/

namespace Sys2Proof.Machine

/-! ### STUFF's loop -/

/-- With every byte of the scan written, the loop answers a memory in which each anchor (the last one before the scan,
and each sentinel in it) that has a sentinel of the scan after it holds the distance to the next one (R90), and every
other byte is as before. -/
theorem stuffLoop_ok {n base i last : Nat} {m : Memory} (X : Nat → Byte) (hl : last < i)
    (hX : ∀ j, i ≤ j → j < i + n → memRead m (base + j) = some (X j)) :
    ∃ m', stuffLoop n base i last m = .ok m' ∧
      (∀ p q, p = last ∨ (i ≤ p ∧ X p = 0) → p < q → i ≤ q → q < i + n → X q = 0 →
        (∀ k, p < k → i ≤ k → k < q → X k ≠ 0) → memRead m' (base + p) = some (BitVec.ofNat 8 (q - p))) ∧
      (∀ a, (∀ p q, p = last ∨ (i ≤ p ∧ X p = 0) → p < q → i ≤ q → q < i + n → X q = 0 → a ≠ base + p) →
        memRead m' a = memRead m a) := by
  induction n generalizing i last m with
  | zero => exact ⟨m, rfl, fun p q _ _ _ _ => by omega, fun _ _ => rfl⟩
  | succ n ih =>
    have h0 := hX i (Nat.le_refl i) (by omega)
    simp only [stuffLoop, load_of_some h0, Config.sentinel]
    by_cases hi : X i = 0
    · rw [if_pos hi]
      obtain ⟨m', hm, hA, hB⟩ := ih (i := i + 1) (last := i)
        (m := memWrite m (base + last) (BitVec.ofNat 8 (i - last))) (by omega) (fun j h1 h2 => by
          rw [memRead_memWrite_other _ _ _ (by omega)]; exact hX j (by omega) (by omega))
      refine ⟨m', hm, fun p q hp hpq hiq hq hXq hk => ?_, fun a ha => ?_⟩
      · rcases hp with rfl | ⟨hip, hXp⟩
        · have hqi : q = i := by
            by_contra hne
            exact hk i hl (Nat.le_refl i) (by omega) hi
          subst hqi
          rw [hB _ fun p' q' hp' _ _ _ _ => by omega, memRead_memWrite_same]
        · have hqi : i + 1 ≤ q := by omega
          refine hA p q ?_ hpq hqi (by omega) hXq fun k h1 h2 h3 => hk k h1 (by omega) h3
          by_cases hpi : p = i
          · exact .inl hpi
          · exact .inr ⟨by omega, hXp⟩
      · have hal : a ≠ base + last := ha last i (.inl rfl) hl (Nat.le_refl i) (by omega) hi
        rw [hB a fun p q hp hpq hiq hq hXq => ha p q ?_ hpq (by omega) (by omega) hXq,
          memRead_memWrite_other _ _ _ hal]
        rcases hp with rfl | ⟨hip, hXp⟩
        · exact .inr ⟨Nat.le_refl _, hi⟩
        · exact .inr ⟨by omega, hXp⟩
    · rw [if_neg hi]
      obtain ⟨m', hm, hA, hB⟩ := ih (i := i + 1) (last := last) (m := m) (by omega)
        (fun j h1 h2 => hX j (by omega) (by omega))
      refine ⟨m', hm, fun p q hp hpq hiq hq hXq hk => ?_, fun a ha => hB a fun p q hp hpq hiq hq hXq => ?_⟩
      · have hqi : q ≠ i := fun h => hi (h ▸ hXq)
        refine hA p q ?_ hpq (by omega) (by omega) hXq fun k h1 h2 h3 => hk k h1 (by omega) h3
        rcases hp with rfl | ⟨hip, hXp⟩
        · exact .inl rfl
        · have : p ≠ i := fun h => hi (h ▸ hXp)
          exact .inr ⟨by omega, hXp⟩
      · refine ha p q ?_ hpq (by omega) (by omega) hXq
        rcases hp with rfl | ⟨hip, hXp⟩
        · exact .inl rfl
        · exact .inr ⟨by omega, hXp⟩

/-- The loop faults at the first byte of its scan that nothing has written. -/
theorem stuffLoop_unwritten {n base i last : Nat} {m : Memory} {j : Nat} (hl : last < i) (hij : i ≤ j) (hj : j < i + n)
    (hw : ∀ k, i ≤ k → k < j → memRead m (base + k) ≠ none) (hn : memRead m (base + j) = none) :
    stuffLoop n base i last m = .error (.unwrittenRead (base + j)) := by
  induction n generalizing i last m with
  | zero => omega
  | succ n ih =>
    by_cases hji : j = i
    · subst hji
      simp only [stuffLoop, load_of_none hn]
    · obtain ⟨v, hv⟩ := Option.ne_none_iff_exists'.1 (hw i (Nat.le_refl i) (by omega))
      simp only [stuffLoop, load_of_some hv]
      split
      · refine ih (by omega) (by omega) (by omega) (fun k h1 h2 => ?_) ?_
        · rw [memRead_memWrite_other _ _ _ (by omega)]; exact hw k (by omega) h2
        · rwa [memRead_memWrite_other _ _ _ (by omega)]
      · exact ih (by omega) (by omega) (by omega) (fun k h1 h2 => hw k (by omega) h2) hn

/-- What the loop can do at all: a fault is a read of an unwritten byte of its scan, and a memory it answers is canonical,
inside BUF, and changed in its own range only. -/
theorem stuffLoop_error {n base i last : Nat} {m : Memory} {f : Fault} (hl : last < i)
    (h : stuffLoop n base i last m = .error f) :
    ∃ j, i ≤ j ∧ j < i + n ∧ f = .unwrittenRead (base + j) ∧ memRead m (base + j) = none := by
  induction n generalizing i last m with
  | zero => cases h
  | succ n ih =>
    simp only [stuffLoop] at h
    split at h
    · cases h
      obtain ⟨hn, rfl⟩ := load_eq_error.1 ‹_›
      exact ⟨i, Nat.le_refl i, by omega, rfl, hn⟩
    · split at h
      · obtain ⟨j, h1, h2, rfl, hn⟩ := ih (by omega) h
        rw [memRead_memWrite_other _ _ _ (by omega)] at hn
        exact ⟨j, by omega, by omega, rfl, hn⟩
      · obtain ⟨j, h1, h2, rfl, hn⟩ := ih (by omega) h
        exact ⟨j, by omega, by omega, rfl, hn⟩

theorem stuffLoop_frame {n base i last : Nat} {m m' : Memory} (hl : last < i)
    (h : stuffLoop n base i last m = .ok m') :
    (Memory.wf m → Memory.wf m') ∧ (∀ N, base + i + n ≤ N → Memory.within N m → Memory.within N m') ∧
      ∀ a, a < base ∨ base + i + n ≤ a → memRead m' a = memRead m a := by
  induction n generalizing i last m with
  | zero => cases h; exact ⟨id, fun _ _ => id, fun _ _ => rfl⟩
  | succ n ih =>
    simp only [stuffLoop] at h
    split at h
    · cases h
    · split at h
      · obtain ⟨h1, h2, h3⟩ := ih (by omega) h
        refine ⟨fun hw => h1 (memWrite_wf hw _ _), fun N hN hi => h2 N (by omega) (memWrite_within hi (by omega) _),
          fun a ha => ?_⟩
        rw [h3 a (by omega), memRead_memWrite_other _ _ _ (by omega)]
      · obtain ⟨h1, h2, h3⟩ := ih (by omega) h
        exact ⟨h1, fun N hN => h2 N (by omega), fun a ha => h3 a (by omega)⟩

/-! ### The chain walk -/

/-- One test of the walk's condition that holds, at a written byte. -/
theorem walk_succ {tests base len : Nat} {next : Half} {m : Memory} {t : Byte} (hlt : next.toNat < len)
    (hr : memRead m (base + next.toNat) = some t) :
    walk (tests + 1) base len next m =
      if t = 0x00 then .ok ⟨memWrite m (base + next.toNat) 0x00, next, true⟩
      else walk tests base len (next + t.setWidth 16) (memWrite m (base + next.toNat) 0x00) := by
  simp only [walk, if_pos hlt, load_of_some hr, Config.sentinel]

theorem walk_past {tests base len : Nat} {next : Half} {m : Memory} (h : len ≤ next.toNat) :
    walk tests base len next m = .ok ⟨m, next, false⟩ := by
  cases tests with
  | zero => rfl
  | succ n => simp only [walk, if_neg (Nat.not_lt.2 h)]

theorem walk_unwritten {tests base len : Nat} {next : Half} {m : Memory} (hlt : next.toNat < len)
    (hr : memRead m (base + next.toNat) = none) :
    walk (tests + 1) base len next m = .error (.unwrittenRead (base + next.toNat)) := by
  simp only [walk, if_pos hlt, load_of_none hr]

/-- R92: `NEXT + t` "never truncates". -/
theorem next_add_toNat {next : Half} {t : Byte} (h : next.toNat < 32768) :
    (next + t.setWidth 16).toNat = next.toNat + t.toNat := by
  have := t.isLt
  rw [BitVec.toNat_add, BitVec.toNat_setWidth, Nat.mod_eq_of_lt (by omega), Nat.mod_eq_of_lt (by omega)]

/-- R92: "the walk ends after at most LEN iterations": tests beyond that change nothing. -/
theorem walk_tests {tests base len : Nat} {next : Half} {m : Memory} (hlen : len ≤ 32768)
    (h : len + 1 ≤ tests + next.toNat) (extra : Nat) :
    walk (tests + extra) base len next m = walk tests base len next m := by
  induction tests generalizing next m with
  | zero => rw [walk_past (by omega), walk_past (by omega)]
  | succ n ih =>
    by_cases hlt : next.toNat < len
    · rw [show n + 1 + extra = (n + extra) + 1 by omega]
      cases hr : memRead m (base + next.toNat) with
      | none => rw [walk_unwritten hlt hr, walk_unwritten hlt hr]
      | some t =>
        rw [walk_succ hlt hr, walk_succ hlt hr]
        split
        · rfl
        · rename_i ht
          have hpos : 0 < t.toNat := by
            rcases Nat.eq_zero_or_pos t.toNat with h0 | h0
            · exact absurd (BitVec.eq_of_toNat_eq (by simpa using h0)) ht
            · exact h0
          apply ih
          rw [next_add_toNat (by omega)]
          omega
    · rw [walk_past (by omega), walk_past (by omega)]

/-- What the walk can do at all. -/
theorem walk_error {tests base len : Nat} {next : Half} {m : Memory} {f : Fault} (hlen : len ≤ 32768)
    (h : walk tests base len next m = .error f) :
    ∃ j, next.toNat ≤ j ∧ j < len ∧ f = .unwrittenRead (base + j) ∧ memRead m (base + j) = none := by
  induction tests generalizing next m with
  | zero => cases h
  | succ n ih =>
    by_cases hlt : next.toNat < len
    · cases hr : memRead m (base + next.toNat) with
      | none =>
        rw [walk_unwritten hlt hr] at h
        cases h
        exact ⟨_, Nat.le_refl _, hlt, rfl, hr⟩
      | some t =>
        rw [walk_succ hlt hr] at h
        split at h
        · cases h
        · obtain ⟨j, h1, h2, rfl, hn⟩ := ih h
          rw [next_add_toNat (by omega)] at h1
          rw [memRead_memWrite] at hn
          split at hn
          · cases hn
          · exact ⟨j, by omega, h2, rfl, hn⟩
    · rw [walk_past (by omega)] at h
      cases h

/-- The same in states whose BUF_SIZE is out of range, where NEXT could wrap: a fault is still a read of an unwritten
byte of the buffer. -/
theorem walk_error_any {tests base len : Nat} {next : Half} {m : Memory} {f : Fault}
    (h : walk tests base len next m = .error f) :
    ∃ j, j < len ∧ f = .unwrittenRead (base + j) ∧ memRead m (base + j) = none := by
  induction tests generalizing next m with
  | zero => cases h
  | succ n ih =>
    by_cases hlt : next.toNat < len
    · cases hr : memRead m (base + next.toNat) with
      | none =>
        rw [walk_unwritten hlt hr] at h
        cases h
        exact ⟨_, hlt, rfl, hr⟩
      | some t =>
        rw [walk_succ hlt hr] at h
        split at h
        · cases h
        · obtain ⟨j, h2, rfl, hn⟩ := ih h
          rw [memRead_memWrite] at hn
          split at hn
          · cases hn
          · exact ⟨j, h2, rfl, hn⟩
    · rw [walk_past (by omega)] at h
      cases h

theorem walk_frame {tests base len : Nat} {next : Half} {m : Memory} {e : WalkEnd}
    (h : walk tests base len next m = .ok e) :
    (Memory.wf m → Memory.wf e.buf) ∧ (∀ N, base + len ≤ N → Memory.within N m → Memory.within N e.buf) ∧
      (∀ a, a < base ∨ base + len ≤ a → memRead e.buf a = memRead m a) ∧
      (e.term = true → e.next.toNat < len ∧ memRead e.buf (base + e.next.toNat) = some 0x00) := by
  induction tests generalizing next m with
  | zero => cases h; exact ⟨id, fun _ _ => id, fun _ _ => rfl, fun h => by cases h⟩
  | succ n ih =>
    by_cases hlt : next.toNat < len
    · cases hr : memRead m (base + next.toNat) with
      | none => rw [walk_unwritten hlt hr] at h; cases h
      | some t =>
        rw [walk_succ hlt hr] at h
        split at h
        · cases h
          exact ⟨fun hw => memWrite_wf hw _ _, fun N hN hi => memWrite_within hi (by omega) _,
            fun a ha => memRead_memWrite_other _ _ _ (by omega), fun _ => ⟨hlt, memRead_memWrite_same _ _ _⟩⟩
        · obtain ⟨h1, h2, h3, h4⟩ := ih h
          exact ⟨fun hw => h1 (memWrite_wf hw _ _), fun N hN hi => h2 N hN (memWrite_within hi (by omega) _),
            fun a ha => by rw [h3 a ha, memRead_memWrite_other _ _ _ (by omega)], h4⟩
    · rw [walk_past (by omega)] at h
      cases h
      exact ⟨id, fun _ _ => id, fun _ _ => rfl, fun h => by cases h⟩

end Sys2Proof.Machine
end

