-- ==== Sys2Proof/Laws/Chain.lean ====
section
/-! SUPPORT. The offset chain and the chain walk: a walk over written bytes follows the chain. -/

namespace Sys2Proof.Machine

theorem byte_pos {t : Byte} (h : t ≠ 0x00) : 0 < t.toNat := by
  rcases Nat.eq_zero_or_pos t.toNat with h0 | h0
  · exact absurd (BitVec.eq_of_toNat_eq (by simpa using h0)) h
  · exact h0

/-- A chain runs upwards: its positions lie between where it starts and where it ends, all below LEN. -/
theorem Hops.bounds {X : Nat → Byte} {len p e : Nat} {vs : List Nat} (h : Hops X len p vs e) :
    p ≤ e ∧ ∀ q ∈ vs, p ≤ q ∧ q < e ∧ q < len := by
  induction h with
  | here => exact ⟨Nat.le_refl _, by simp⟩
  | hop hlt hne _ ih =>
    have := byte_pos hne
    refine ⟨by omega, fun q hq => ?_⟩
    rcases List.mem_cons.1 hq with rfl | hq
    · omega
    · have := ih.2 q hq
      omega

/-- Each position of a chain that starts below LEN holds an offset of at most 255, so the chain ends below LEN + 255. -/
theorem Hops.end_lt {X : Nat → Byte} {len p e N : Nat} {vs : List Nat} (h : Hops X len p vs e) (hp : p < N)
    (hN : len + 255 ≤ N) : e < N := by
  induction h with
  | here => exact hp
  | @hop p q vs hlt _ _ ih => exact ih (by have := (X p).isLt; omega)

/-- The walk follows the chain: over written bytes it comes to the end of the hops with every position visited set to
0x00, every other byte as before, and tests enough left. -/
theorem walk_hops {X : Nat → Byte} {len base p e : Nat} {vs : List Nat} (h : Hops X len p vs e) (hlen : len ≤ 32768)
    {tests : Nat} {m : Memory} (hp : p < 65536) (ht : len + 1 ≤ tests + p)
    (hr : ∀ q ∈ vs, memRead m (base + q) = some (X q)) :
    ∃ tests' m', walk tests base len (BitVec.ofNat 16 p) m = walk tests' base len (BitVec.ofNat 16 e) m' ∧
      len + 1 ≤ tests' + e ∧ (Memory.wf m → Memory.wf m') ∧
      (∀ q ∈ vs, memRead m' (base + q) = some 0x00) ∧
      ∀ a, (∀ q ∈ vs, a ≠ base + q) → memRead m' a = memRead m a := by
  induction h generalizing tests m with
  | here => exact ⟨tests, m, rfl, ht, id, by simp, fun _ _ => rfl⟩
  | @hop p q vs hlt hne hh ih =>
    have hpn : (BitVec.ofNat 16 p).toNat = p := by simp; omega
    have hX := (X p).isLt
    have hpos := byte_pos hne
    obtain ⟨tests, rfl⟩ : ∃ n, tests = n + 1 := ⟨tests - 1, by omega⟩
    have hb := hh.bounds
    have hnext : BitVec.ofNat 16 p + (X p).setWidth 16 = BitVec.ofNat 16 (p + (X p).toNat) := by
      apply BitVec.eq_of_toNat_eq
      rw [next_add_toNat (by omega), hpn]
      simp
      omega
    obtain ⟨tests', m', h1, h2, h3, h4, h5⟩ := ih (tests := tests) (m := memWrite m (base + p) 0x00) (by omega)
      (by omega) (fun r hr' => by
        have := hb.2 r hr'
        rw [memRead_memWrite_other _ _ _ (by omega)]
        exact hr r (by simp [hr']))
    refine ⟨tests', m', ?_, h2, fun hw => h3 (memWrite_wf hw _ _), fun r hr' => ?_, fun a ha => ?_⟩
    · rw [walk_succ (t := X p) (by omega) (by rw [hpn]; exact hr p (by simp)), if_neg hne, hpn, hnext, h1]
    · rcases List.mem_cons.1 hr' with rfl | hr'
      · rw [h5 _ fun q hq => by have := hb.2 q hq; omega, memRead_memWrite_same]
      · exact h4 r hr'
    · rw [h5 a fun q hq => ha q (by simp [hq]), memRead_memWrite_other _ _ _ (ha p (by simp))]

/-- The walk only ever writes 0x00: a byte that holds 0x00 still does after it. -/
theorem walk_keeps_zero {tests base len : Nat} {next : Half} {m : Memory} {e : WalkEnd} {a : Nat}
    (h : walk tests base len next m = .ok e) (ha : memRead m a = some 0x00) : memRead e.buf a = some 0x00 := by
  induction tests generalizing next m with
  | zero => cases h; exact ha
  | succ n ih =>
    by_cases hlt : next.toNat < len
    · cases hr : memRead m (base + next.toNat) with
      | none => rw [walk_unwritten hlt hr] at h; cases h
      | some t =>
        have hw : memRead (memWrite m (base + next.toNat) 0x00) a = some 0x00 := by
          rw [memRead_memWrite]; split <;> simp [ha]
        rw [walk_succ hlt hr] at h
        split at h
        · cases h; exact hw
        · exact ih h hw
    · rw [walk_past (by omega)] at h
      cases h; exact ha

/-- R96: the positions a walk visits "do not depend on LEN". A walk paused at LEN = k goes on to what the walk with a
larger LEN reaches; one that met a zero chain value or an unwritten byte ends the same under the larger LEN. -/
theorem walk_pause {base k n : Nat} (hkn : k ≤ n) (hn : n ≤ 32768) (tests tests2 : Nat) (next : Half) (m : Memory)
    (h1 : k + 1 ≤ tests + next.toNat) (h2 : n + 1 ≤ tests2 + next.toNat) :
    (∀ f, walk tests base k next m = .error f → walk tests2 base n next m = .error f) ∧
    ∀ e, walk tests base k next m = .ok e →
      (e.term = true → walk tests2 base n next m = .ok e) ∧
      (e.term = false → ∃ tests3, n + 1 ≤ tests3 + e.next.toNat ∧
        walk tests2 base n next m = walk tests3 base n e.next e.buf) := by
  induction tests generalizing tests2 next m with
  | zero =>
    rw [walk_past (by omega)]
    refine ⟨fun f h => (by cases h), fun e h => ?_⟩
    cases h
    exact ⟨fun h => (by cases h), fun _ => ⟨tests2, h2, rfl⟩⟩
  | succ t ih =>
    by_cases hlt : next.toNat < k
    · obtain ⟨t2, rfl⟩ : ∃ x, tests2 = x + 1 := ⟨tests2 - 1, by omega⟩
      cases hr : memRead m (base + next.toNat) with
      | none =>
        rw [walk_unwritten hlt hr, walk_unwritten (by omega) hr]
        exact ⟨fun f h => h, fun e h => by cases h⟩
      | some b =>
        rw [walk_succ hlt hr, walk_succ (by omega) hr]
        split
        · refine ⟨fun f h => (by cases h), fun e h => ⟨fun _ => h, fun h' => ?_⟩⟩
          cases h; cases h'
        · have := byte_pos ‹_›
          have hnn := next_add_toNat (t := b) (show next.toNat < 32768 by omega)
          exact ih t2 _ _ (by omega) (by omega)
    · rw [walk_past (by omega)]
      refine ⟨fun f h => (by cases h), fun e h => ?_⟩
      cases h
      exact ⟨fun h => (by cases h), fun _ => ⟨tests2, h2, rfl⟩⟩

/-- R91 (c): where every anchor up to the sentinel `z` holds the distance to the next sentinel, the chain from an anchor
`p` visits the anchors from `p` up to `z` and comes to `z`. -/
theorem hops_of_distances {X Y : Nat → Byte} {len z : Nat} (hz : X z = 0x00) (hzl : z ≤ len)
    (hY : ∀ i j, i < j → j ≤ z → (i = 0 ∨ X i = 0x00) → X j = 0x00 → (∀ k, i < k → k < j → X k ≠ 0x00) →
      (Y i).toNat = j - i)
    (d p : Nat) (hd : z - p ≤ d) (hpz : p ≤ z) (hp : p = 0 ∨ X p = 0x00) :
    ∃ vs, Hops Y len p vs z ∧ ∀ i, i ∈ vs ↔ p ≤ i ∧ i < z ∧ (i = p ∨ X i = 0x00) := by
  induction d generalizing p with
  | zero =>
    obtain rfl : p = z := by omega
    exact ⟨[], .here, fun i => by simp; omega⟩
  | succ d ih =>
    by_cases hne : p = z
    · subst hne
      exact ⟨[], .here, fun i => by simp; omega⟩
    have hex : ∃ j, p < j ∧ X j = 0x00 := ⟨z, by omega, hz⟩
    obtain ⟨hj1, hj2⟩ := Nat.find_spec hex
    have hmin : ∀ k, p < k → k < Nat.find hex → X k ≠ 0x00 := fun k hk1 hk2 h => Nat.find_min hex hk2 ⟨hk1, h⟩
    have hjz : Nat.find hex ≤ z := Nat.find_min' hex ⟨by omega, hz⟩
    generalize Nat.find hex = j at *
    obtain ⟨vs, hv, hvm⟩ := ih j (by omega) hjz (.inr hj2)
    have hYp := hY p j hj1 hjz hp hj2 hmin
    refine ⟨p :: vs, .hop (by omega) (fun h => ?_) (by rw [hYp]; rwa [show p + (j - p) = j by omega]), fun i => ?_⟩
    · rw [h] at hYp
      simp at hYp
      omega
    · rw [List.mem_cons, hvm]
      constructor
      · rintro (rfl | ⟨h3, h4, h5⟩)
        · exact ⟨Nat.le_refl _, by omega, .inl rfl⟩
        · exact ⟨by omega, h4, .inr (h5.elim (fun h => h ▸ hj2) id)⟩
      · rintro ⟨h3, h4, rfl | h5⟩
        · exact .inl rfl
        · by_cases hip : i = p
          · exact .inl hip
          · refine .inr ⟨?_, h4, .inr h5⟩
            by_contra hlt
            exact hmin i (by omega) (by omega) h5

end Sys2Proof.Machine
end

