-- ==== Sys2Proof/Laws/Crc.lean ====
section
/-! SUPPORT. The CRC unit: one round and one step over GF(2), and everything CRC.BUF's loop can do. -/

namespace Sys2Proof.Machine

/-! ### The byte step -/

theorem crcRound_zero : crcRound 0 = 0 := by decide

theorem crcRound_xor (a b : Byte) : crcRound (a ^^^ b) = crcRound a ^^^ crcRound b := by
  unfold crcRound
  have hs : (a ^^^ b) <<< 1 = (a <<< 1) ^^^ (b <<< 1) := by
    apply BitVec.eq_of_getLsbD_eq
    intro k hk
    simp only [BitVec.getLsbD_xor, BitVec.getLsbD_shiftLeft]
    by_cases hk0 : k < 1 <;> simp [hk, Bool.and_xor_distrib_left]
  rw [hs, BitVec.getLsbD_xor]
  have hp : ∀ x y : Byte, x ^^^ Config.crcPoly ^^^ (y ^^^ Config.crcPoly) = x ^^^ y := fun x y => by
    rw [BitVec.xor_comm y, ← BitVec.xor_assoc, BitVec.xor_assoc x, BitVec.xor_self, BitVec.xor_zero]
  cases a.getLsbD 7 <;> cases b.getLsbD 7 <;> simp [hp]
  · exact BitVec.xor_assoc _ _ _
  · rw [BitVec.xor_assoc, BitVec.xor_assoc, BitVec.xor_comm Config.crcPoly]

theorem crcRounds_xor (n : Nat) (a b : Byte) : crcRounds n (a ^^^ b) = crcRounds n a ^^^ crcRounds n b := by
  induction n generalizing a b with
  | zero => rfl
  | succ n ih => simp only [crcRounds, crcRound_xor, ih]

/-- R82, law 1: the step depends on `a ^ b` alone. -/
theorem crcStep_eq (a b : Byte) : crcStep a b = crcStep 0 (a ^^^ b) := by simp [crcStep]

theorem crcStep_xor (a b a' b' : Byte) : crcStep (a ^^^ a') (b ^^^ b') = crcStep a b ^^^ crcStep a' b' := by
  have h : a ^^^ a' ^^^ (b ^^^ b') = (a ^^^ b) ^^^ (a' ^^^ b') := by
    rw [BitVec.xor_assoc, BitVec.xor_assoc, ← BitVec.xor_assoc a' b b', BitVec.xor_comm a' b, BitVec.xor_assoc]
  simp [crcStep, h, crcRounds_xor]

@[simp] theorem crcStep_self (a : Byte) : crcStep a a = 0 := by
  simp only [crcStep, BitVec.xor_self]; decide

@[simp] theorem checksum_nil : checksum [] = 0x00 := rfl

/-! ### CRC.BUF's loop -/

theorem crcLoop_ok {m : Memory} {xs : List Byte} {a : Nat} {acc : Byte}
    (h : ∀ i, i < xs.length → memRead m (a + i) = xs[i]?) :
    crcLoop xs.length a m acc = .ok (xs.foldl crcStep acc) := by
  induction xs generalizing a acc with
  | nil => rfl
  | cons x xs ih =>
    have h0 : memRead m a = some x := by simpa using h 0 (by simp)
    simp only [List.length_cons, crcLoop, load_of_some h0, List.foldl_cons]
    refine ih fun i hi => ?_
    have := h (i + 1) (by simp; omega)
    simpa [Nat.add_assoc, Nat.add_comm 1 i] using this

/-- The loop faults at the first byte of its range that nothing has written. -/
theorem crcLoop_unwritten {m : Memory} {n a : Nat} {acc : Byte} {j : Nat} (hj : j < n)
    (hw : ∀ i, i < j → memRead m (a + i) ≠ none) (hn : memRead m (a + j) = none) :
    crcLoop n a m acc = .error (.unwrittenRead (a + j)) := by
  induction n generalizing a acc j with
  | zero => omega
  | succ n ih =>
    cases j with
    | zero =>
      rw [Nat.add_zero] at hn
      simp only [crcLoop, load_of_none hn, Nat.add_zero]
    | succ j =>
      obtain ⟨v, hv⟩ := Option.ne_none_iff_exists'.1 (hw 0 (by omega))
      rw [Nat.add_zero] at hv
      simp only [crcLoop, load_of_some hv]
      rw [show a + (j + 1) = a + 1 + j by omega] at hn ⊢
      refine ih (by omega) (fun i hi => ?_) hn
      rw [show a + 1 + i = a + (i + 1) by omega]
      exact hw (i + 1) (by omega)

/-- A fault of the loop is a read of an unwritten byte of its range. -/
theorem crcLoop_error {m : Memory} {n a : Nat} {acc : Byte} {f : Fault} (h : crcLoop n a m acc = .error f) :
    ∃ j, j < n ∧ f = .unwrittenRead (a + j) ∧ memRead m (a + j) = none := by
  induction n generalizing a acc with
  | zero => cases h
  | succ n ih =>
    simp only [crcLoop] at h
    split at h
    · cases h
      obtain ⟨hn, rfl⟩ := load_eq_error.1 ‹_›
      exact ⟨0, by omega, rfl, hn⟩
    · obtain ⟨j, hj, rfl, hn⟩ := ih h
      exact ⟨j + 1, by omega, by rw [show a + 1 + j = a + (j + 1) by omega],
        by rwa [show a + (j + 1) = a + 1 + j by omega]⟩

end Sys2Proof.Machine
end

