-- ==== Sys2Proof/Laws/Hex.lean ====
section
/-! SUPPORT. The HEX unit: digits and nibbles, and everything the loops of HEX.ENC and HEX.DEC can do. -/

namespace Sys2Proof.Machine

/-! ### Digits and nibbles -/

@[simp] theorem hexVal_hexDigit (v : Nibble) : hexVal (hexDigit v) = some v := by revert v; decide

@[simp] theorem joinNibbles_split (b : Byte) : joinNibbles (highNibble b) (lowNibble b) = b := by revert b; decide

@[simp] theorem highNibble_join (hi lo : Nibble) : highNibble (joinNibbles hi lo) = hi := by
  revert hi lo; decide

@[simp] theorem lowNibble_join (hi lo : Nibble) : lowNibble (joinNibbles hi lo) = lo := by
  revert hi lo; decide

/-! ### HEX.ENC's loop -/

/-- With the source written and outside the destination, the loop writes two digits per byte, and nothing else. -/
theorem hexEncLoop_ok {xs : List Byte} {src dst : Nat} {m : Memory}
    (hx : ∀ i, i < xs.length → memRead m (src + i) = xs[i]?)
    (hd : src + xs.length ≤ dst ∨ dst + 2 * xs.length ≤ src ∨ xs.length = 0) :
    ∃ m', hexEncLoop xs.length src dst m = .ok m' ∧
      (∀ i b, xs[i]? = some b → memRead m' (dst + 2 * i) = some (hexDigit (highNibble b)) ∧
        memRead m' (dst + 2 * i + 1) = some (hexDigit (lowNibble b))) ∧
      ∀ a, a < dst ∨ dst + 2 * xs.length ≤ a → memRead m' a = memRead m a := by
  induction xs generalizing src dst m with
  | nil => exact ⟨m, rfl, fun i b h => by simp at h, fun _ _ => rfl⟩
  | cons x xs ih =>
    have h0 : memRead m src = some x := by simpa using hx 0 (by simp)
    simp only [List.length_cons] at hd hx ⊢
    simp only [hexEncLoop, load_of_some h0]
    obtain ⟨m', hm, hA, hB⟩ := ih (src := src + 1) (dst := dst + 2)
      (m := memWrite (memWrite m dst (hexDigit (highNibble x))) (dst + 1) (hexDigit (lowNibble x)))
      (fun i hi => by
        rw [memRead_memWrite_other _ _ _ (by omega), memRead_memWrite_other _ _ _ (by omega)]
        have := hx (i + 1) (by omega)
        rwa [show src + (i + 1) = src + 1 + i by omega, List.getElem?_cons_succ] at this) (by omega)
    refine ⟨m', hm, fun i b hb => ?_, fun a ha => ?_⟩
    · cases i with
      | zero =>
        simp at hb
        subst hb
        rw [hB _ (by omega), hB _ (by omega), memRead_memWrite_other _ _ _ (by omega)]
        exact ⟨memRead_memWrite_same _ _ _, memRead_memWrite_same _ _ _⟩
      | succ i =>
        have := hA i b (by simpa using hb)
        rwa [show dst + 2 + 2 * i = dst + 2 * (i + 1) by omega] at this
    · rw [hB a (by omega), memRead_memWrite_other _ _ _ (by omega), memRead_memWrite_other _ _ _ (by omega)]

theorem hexEncLoop_unwritten {n src dst : Nat} {m : Memory} {j : Nat} (hj : j < n)
    (hd : src + n ≤ dst ∨ dst + 2 * n ≤ src)
    (hw : ∀ i, i < j → memRead m (src + i) ≠ none) (hn : memRead m (src + j) = none) :
    hexEncLoop n src dst m = .error (.unwrittenRead (src + j)) := by
  induction n generalizing src dst m j with
  | zero => omega
  | succ n ih =>
    cases j with
    | zero =>
      rw [Nat.add_zero] at hn
      simp only [hexEncLoop, load_of_none hn, Nat.add_zero]
    | succ j =>
      obtain ⟨v, hv⟩ := Option.ne_none_iff_exists'.1 (hw 0 (by omega))
      rw [Nat.add_zero] at hv
      simp only [hexEncLoop, load_of_some hv]
      rw [show src + (j + 1) = src + 1 + j by omega] at hn ⊢
      refine ih (by omega) (by omega) (fun i hi => ?_) ?_
      · rw [memRead_memWrite_other _ _ _ (by omega), memRead_memWrite_other _ _ _ (by omega),
          show src + 1 + i = src + (i + 1) by omega]
        exact hw (i + 1) (by omega)
      · rwa [memRead_memWrite_other _ _ _ (by omega), memRead_memWrite_other _ _ _ (by omega)]

theorem hexEncLoop_error {n src dst : Nat} {m : Memory} {f : Fault} (h : hexEncLoop n src dst m = .error f) :
    ∃ j, j < n ∧ f = .unwrittenRead (src + j) ∧ memRead m (src + j) = none := by
  induction n generalizing src dst m with
  | zero => cases h
  | succ n ih =>
    simp only [hexEncLoop] at h
    split at h
    · cases h
      obtain ⟨hn, rfl⟩ := load_eq_error.1 ‹_›
      exact ⟨0, by omega, rfl, hn⟩
    · obtain ⟨j, hj, rfl, hn⟩ := ih h
      rw [memRead_memWrite] at hn
      split at hn
      · cases hn
      · rw [memRead_memWrite] at hn
        split at hn
        · cases hn
        · exact ⟨j + 1, by omega, by rw [show src + 1 + j = src + (j + 1) by omega],
            by rwa [show src + (j + 1) = src + 1 + j by omega]⟩

theorem hexEncLoop_frame {n src dst : Nat} {m m' : Memory} (h : hexEncLoop n src dst m = .ok m') :
    (Memory.wf m → Memory.wf m') ∧ (∀ N, dst + 2 * n ≤ N → Memory.within N m → Memory.within N m') ∧
      ∀ a, a < dst ∨ dst + 2 * n ≤ a → memRead m' a = memRead m a := by
  induction n generalizing src dst m with
  | zero => cases h; exact ⟨id, fun _ _ => id, fun _ _ => rfl⟩
  | succ n ih =>
    simp only [hexEncLoop] at h
    split at h
    · cases h
    · obtain ⟨h1, h2, h3⟩ := ih h
      refine ⟨fun hw => h1 (memWrite_wf (memWrite_wf hw _ _) _ _), fun N hN hi => h2 N (by omega)
        (memWrite_within (memWrite_within hi (by omega) _) (by omega) _), fun a ha => ?_⟩
      rw [h3 a (by omega), memRead_memWrite_other _ _ _ (by omega), memRead_memWrite_other _ _ _ (by omega)]

/-! ### HEX.DEC's loops -/

/-- With every character valid, the values in order. -/
theorem hexValues_ok {n a : Nat} {m : Memory} (V : Nat → Nibble)
    (h : ∀ j, j < n → ∃ c, memRead m (a + j) = some c ∧ hexVal c = some (V j)) :
    hexValues n a m = .ok (some ((List.range n).map V)) := by
  induction n generalizing a V with
  | zero => rfl
  | succ n ih =>
    obtain ⟨c, hc, hv⟩ := h 0 (by omega)
    rw [Nat.add_zero] at hc
    simp only [hexValues, load_of_some hc, hv]
    rw [ih (a := a + 1) (fun j => V (j + 1)) fun j hj => ?_]
    · simp [List.range_succ_eq_map, Function.comp_def]
    · have := h (j + 1) (by omega)
      rwa [show a + (j + 1) = a + 1 + j by omega] at this

/-- The first character that is not valid decides: INVALID stops the scan, an unwritten one is a fault. -/
theorem hexValues_invalid {n a : Nat} {m : Memory} {j : Nat} {c : Byte} (hj : j < n)
    (hb : ∀ i, i < j → ∃ c v, memRead m (a + i) = some c ∧ hexVal c = some v)
    (hc : memRead m (a + j) = some c) (hv : hexVal c = none) : hexValues n a m = .ok none := by
  induction n generalizing a j with
  | zero => omega
  | succ n ih =>
    cases j with
    | zero =>
      rw [Nat.add_zero] at hc
      simp only [hexValues, load_of_some hc, hv]
    | succ j =>
      obtain ⟨c0, v0, hc0, hv0⟩ := hb 0 (by omega)
      rw [Nat.add_zero] at hc0
      simp only [hexValues, load_of_some hc0, hv0]
      rw [ih (a := a + 1) (j := j) (by omega) (fun i hi => ?_) (by rwa [show a + 1 + j = a + (j + 1) by omega])]
      · rfl
      · have := hb (i + 1) (by omega)
        rwa [show a + (i + 1) = a + 1 + i by omega] at this

theorem hexValues_unwritten {n a : Nat} {m : Memory} {j : Nat} (hj : j < n)
    (hb : ∀ i, i < j → ∃ c v, memRead m (a + i) = some c ∧ hexVal c = some v)
    (hn : memRead m (a + j) = none) : hexValues n a m = .error (.unwrittenRead (a + j)) := by
  induction n generalizing a j with
  | zero => omega
  | succ n ih =>
    cases j with
    | zero =>
      rw [Nat.add_zero] at hn
      simp only [hexValues, load_of_none hn, Nat.add_zero]
    | succ j =>
      obtain ⟨c0, v0, hc0, hv0⟩ := hb 0 (by omega)
      rw [Nat.add_zero] at hc0
      simp only [hexValues, load_of_some hc0, hv0]
      have he := ih (a := a + 1) (j := j) (by omega) (fun i hi => by
        have := hb (i + 1) (by omega)
        rwa [show a + (i + 1) = a + 1 + i by omega] at this) (by rwa [show a + 1 + j = a + (j + 1) by omega])
      rw [he, show a + 1 + j = a + (j + 1) by omega]

/-- What the scan can do at all. -/
theorem hexValues_error {n a : Nat} {m : Memory} {f : Fault} (h : hexValues n a m = .error f) :
    ∃ j, j < n ∧ f = .unwrittenRead (a + j) ∧ memRead m (a + j) = none := by
  induction n generalizing a with
  | zero => cases h
  | succ n ih =>
    simp only [hexValues] at h
    split at h
    · cases h
      obtain ⟨hn, rfl⟩ := load_eq_error.1 ‹_›
      exact ⟨0, by omega, rfl, hn⟩
    · split at h
      · cases h
      · split at h
        · cases h
          obtain ⟨j, hj, rfl, hn⟩ := ih ‹_›
          exact ⟨j + 1, by omega, by rw [show a + 1 + j = a + (j + 1) by omega],
            by rwa [show a + (j + 1) = a + 1 + j by omega]⟩
        · cases h

theorem hexValues_length {n a : Nat} {m : Memory} {vs : List Nibble} (h : hexValues n a m = .ok (some vs)) :
    vs.length = n := by
  induction n generalizing a vs with
  | zero => cases h; rfl
  | succ n ih =>
    simp only [hexValues] at h
    split at h
    · cases h
    · split at h
      · cases h
      · split at h
        · cases h
        · rename_i o ho
          cases o with
          | none => cases h
          | some ws => cases h; simp [ih ho]

/-- ILLEGAL_HEX comes from the first character that is not a hex digit, every character before it one. -/
theorem hexValues_none {n a : Nat} {m : Memory} (h : hexValues n a m = .ok none) :
    ∃ j c, j < n ∧ memRead m (a + j) = some c ∧ hexVal c = none ∧
      ∀ k, k < j → ∃ d v, memRead m (a + k) = some d ∧ hexVal d = some v := by
  induction n generalizing a with
  | zero => cases h
  | succ n ih =>
    simp only [hexValues] at h
    split at h
    · cases h
    · rename_i c hc
      have hc := load_eq_ok.1 hc
      split at h
      · exact ⟨0, c, by omega, hc, ‹_›, fun k hk => by omega⟩
      · rename_i v hv
        split at h
        · cases h
        · rename_i o ho
          cases o with
          | some ws => cases h
          | none =>
            obtain ⟨j, d, hj, hd, hdn, hb⟩ := ih ho
            refine ⟨j + 1, d, by omega, by rwa [show a + (j + 1) = a + 1 + j by omega], hdn, fun k hk => ?_⟩
            cases k with
            | zero => exact ⟨c, v, hc, hv⟩
            | succ k =>
              have := hb k (by omega)
              rwa [show a + 1 + k = a + (k + 1) by omega] at this

theorem hexStore_cons (hi lo : Nibble) (vs : List Nibble) (dst : Nat) (m : Memory) :
    hexStore (hi :: lo :: vs) dst m = hexStore vs (dst + 1) (memWrite m dst (joinNibbles hi lo)) := rfl

/-- The store writes one byte per pair of values from `dst` upwards, and nothing else. -/
theorem hexStore_spec (n : Nat) (V : Nat → Nibble) (dst : Nat) (m : Memory) :
    (∀ i, i < n → memRead (hexStore ((List.range (2 * n)).map V) dst m) (dst + i) =
      some (joinNibbles (V (2 * i)) (V (2 * i + 1)))) ∧
    ∀ a, a < dst ∨ dst + n ≤ a → memRead (hexStore ((List.range (2 * n)).map V) dst m) a = memRead m a := by
  induction n generalizing V dst m with
  | zero => exact ⟨fun i hi => by omega, fun _ _ => rfl⟩
  | succ n ih =>
    have hl : (List.range (2 * (n + 1))).map V = V 0 :: V 1 :: (List.range (2 * n)).map (fun j => V (j + 2)) := by
      rw [show 2 * (n + 1) = (2 * n + 1) + 1 by omega]
      simp [List.range_succ_eq_map, Function.comp_def]
    rw [hl]
    simp only [hexStore_cons]
    obtain ⟨hA, hB⟩ := ih (fun j => V (j + 2)) (dst + 1) (memWrite m dst (joinNibbles (V 0) (V 1)))
    refine ⟨fun i hi => ?_, fun a ha => ?_⟩
    · cases i with
      | zero => exact (hB dst (by omega)).trans (memRead_memWrite_same _ _ _)
      | succ i =>
        have := hA i (by omega)
        rwa [show dst + 1 + i = dst + (i + 1) by omega] at this
    · rw [hB a (by omega), memRead_memWrite_other _ _ _ (by omega)]

theorem hexStore_frame {n : Nat} {vs : List Nibble} {dst : Nat} {m : Memory} (hl : vs.length = 2 * n) :
    (Memory.wf m → Memory.wf (hexStore vs dst m)) ∧
      (∀ N, dst + n ≤ N → Memory.within N m → Memory.within N (hexStore vs dst m)) ∧
      ∀ a, a < dst ∨ dst + n ≤ a → memRead (hexStore vs dst m) a = memRead m a := by
  induction n generalizing vs dst m with
  | zero =>
    cases vs with
    | nil => exact ⟨id, fun _ _ => id, fun _ _ => rfl⟩
    | cons v vs => simp at hl
  | succ n ih =>
    rcases vs with _ | ⟨hi, _ | ⟨lo, vs⟩⟩
    · simp at hl
    · simp at hl; omega
    · have hl' : vs.length = 2 * n := by simp at hl; omega
      rw [hexStore_cons]
      obtain ⟨h1, h2, h3⟩ := ih (dst := dst + 1) (m := memWrite m dst (joinNibbles hi lo)) hl'
      refine ⟨fun hw => h1 (memWrite_wf hw _ _), fun N hN hin => h2 N (by omega) (memWrite_within hin (by omega) _),
        fun a ha => ?_⟩
      rw [h3 a (by omega), memRead_memWrite_other _ _ _ (by omega)]

end Sys2Proof.Machine
end

