-- ==== Sys2Proof/Laws/State.lean ====
section
/-! SUPPORT. One lemma per field per named update of State, so that no later proof unfolds a record update. -/

namespace Sys2Proof.Machine

@[simp] theorem State.setAcc_bufSize (s : State) (a : Byte) : (s.setAcc a).bufSize = s.bufSize := rfl
@[simp] theorem State.setAcc_buf (s : State) (a : Byte) : (s.setAcc a).buf = s.buf := rfl
@[simp] theorem State.setAcc_cmd (s : State) (a : Byte) : (s.setAcc a).cmd = s.cmd := rfl
@[simp] theorem State.setAcc_status (s : State) (a : Byte) : (s.setAcc a).status = s.status := rfl
@[simp] theorem State.setAcc_crc (s : State) (a : Byte) : (s.setAcc a).crc = zextByte a := rfl
@[simp] theorem State.setAcc_src (s : State) (a : Byte) : (s.setAcc a).src = s.src := rfl
@[simp] theorem State.setAcc_dst (s : State) (a : Byte) : (s.setAcc a).dst = s.dst := rfl
@[simp] theorem State.setAcc_len (s : State) (a : Byte) : (s.setAcc a).len = s.len := rfl
@[simp] theorem State.setAcc_next (s : State) (a : Byte) : (s.setAcc a).next = s.next := rfl
@[simp] theorem State.setAcc_inputs (s : State) (a : Byte) : (s.setAcc a).inputs = s.inputs := rfl
@[simp] theorem State.setAcc_replies (s : State) (a : Byte) : (s.setAcc a).replies = s.replies := rfl

@[simp] theorem State.setNext_bufSize (s : State) (n : Half) : (s.setNext n).bufSize = s.bufSize := rfl
@[simp] theorem State.setNext_buf (s : State) (n : Half) : (s.setNext n).buf = s.buf := rfl
@[simp] theorem State.setNext_cmd (s : State) (n : Half) : (s.setNext n).cmd = s.cmd := rfl
@[simp] theorem State.setNext_status (s : State) (n : Half) : (s.setNext n).status = s.status := rfl
@[simp] theorem State.setNext_crc (s : State) (n : Half) : (s.setNext n).crc = s.crc := rfl
@[simp] theorem State.setNext_src (s : State) (n : Half) : (s.setNext n).src = s.src := rfl
@[simp] theorem State.setNext_dst (s : State) (n : Half) : (s.setNext n).dst = s.dst := rfl
@[simp] theorem State.setNext_len (s : State) (n : Half) : (s.setNext n).len = s.len := rfl
@[simp] theorem State.setNext_next (s : State) (n : Half) : (s.setNext n).next = zextHalf n := rfl
@[simp] theorem State.setNext_inputs (s : State) (n : Half) : (s.setNext n).inputs = s.inputs := rfl
@[simp] theorem State.setNext_replies (s : State) (n : Half) : (s.setNext n).replies = s.replies := rfl

@[simp] theorem State.succeed_bufSize (s : State) (b : Bool) : (s.succeed b).bufSize = s.bufSize := rfl
@[simp] theorem State.succeed_buf (s : State) (b : Bool) : (s.succeed b).buf = s.buf := rfl
@[simp] theorem State.succeed_cmd (s : State) (b : Bool) : (s.succeed b).cmd = s.cmd := rfl
@[simp] theorem State.succeed_status (s : State) (b : Bool) : (s.succeed b).status = statusWord okCode b := rfl
@[simp] theorem State.succeed_crc (s : State) (b : Bool) : (s.succeed b).crc = s.crc := rfl
@[simp] theorem State.succeed_src (s : State) (b : Bool) : (s.succeed b).src = s.src := rfl
@[simp] theorem State.succeed_dst (s : State) (b : Bool) : (s.succeed b).dst = s.dst := rfl
@[simp] theorem State.succeed_len (s : State) (b : Bool) : (s.succeed b).len = s.len := rfl
@[simp] theorem State.succeed_next (s : State) (b : Bool) : (s.succeed b).next = s.next := rfl
@[simp] theorem State.succeed_inputs (s : State) (b : Bool) : (s.succeed b).inputs = s.inputs := rfl
@[simp] theorem State.succeed_replies (s : State) (b : Bool) : (s.succeed b).replies = s.replies := rfl

@[simp] theorem State.raise_bufSize (s : State) (e : CmdError) : (s.raise e).bufSize = s.bufSize := rfl
@[simp] theorem State.raise_buf (s : State) (e : CmdError) : (s.raise e).buf = s.buf := rfl
@[simp] theorem State.raise_cmd (s : State) (e : CmdError) : (s.raise e).cmd = s.cmd := rfl
@[simp] theorem State.raise_status (s : State) (e : CmdError) : (s.raise e).status = statusWord e.code false := rfl
@[simp] theorem State.raise_crc (s : State) (e : CmdError) : (s.raise e).crc = s.crc := rfl
@[simp] theorem State.raise_src (s : State) (e : CmdError) : (s.raise e).src = s.src := rfl
@[simp] theorem State.raise_dst (s : State) (e : CmdError) : (s.raise e).dst = s.dst := rfl
@[simp] theorem State.raise_len (s : State) (e : CmdError) : (s.raise e).len = s.len := rfl
@[simp] theorem State.raise_next (s : State) (e : CmdError) : (s.raise e).next = s.next := rfl
@[simp] theorem State.raise_inputs (s : State) (e : CmdError) : (s.raise e).inputs = s.inputs := rfl
@[simp] theorem State.raise_replies (s : State) (e : CmdError) : (s.raise e).replies = s.replies := rfl

@[simp] theorem State.endWalk_bufSize (s : State) (e : WalkEnd) : (s.endWalk e).bufSize = s.bufSize := rfl
@[simp] theorem State.endWalk_buf (s : State) (e : WalkEnd) : (s.endWalk e).buf = e.buf := rfl
@[simp] theorem State.endWalk_cmd (s : State) (e : WalkEnd) : (s.endWalk e).cmd = s.cmd := rfl
@[simp] theorem State.endWalk_status (s : State) (e : WalkEnd) : (s.endWalk e).status = statusWord okCode e.term := rfl
@[simp] theorem State.endWalk_crc (s : State) (e : WalkEnd) : (s.endWalk e).crc = s.crc := rfl
@[simp] theorem State.endWalk_src (s : State) (e : WalkEnd) : (s.endWalk e).src = s.src := rfl
@[simp] theorem State.endWalk_dst (s : State) (e : WalkEnd) : (s.endWalk e).dst = s.dst := rfl
@[simp] theorem State.endWalk_len (s : State) (e : WalkEnd) : (s.endWalk e).len = s.len := rfl
@[simp] theorem State.endWalk_next (s : State) (e : WalkEnd) : (s.endWalk e).next = zextHalf e.next := rfl
@[simp] theorem State.endWalk_inputs (s : State) (e : WalkEnd) : (s.endWalk e).inputs = s.inputs := rfl
@[simp] theorem State.endWalk_replies (s : State) (e : WalkEnd) : (s.endWalk e).replies = s.replies := rfl

@[simp] theorem State.reply_bufSize (s : State) (r : Reply) : (s.reply r).bufSize = s.bufSize := rfl
@[simp] theorem State.reply_buf (s : State) (r : Reply) : (s.reply r).buf = s.buf := rfl
@[simp] theorem State.reply_cmd (s : State) (r : Reply) : (s.reply r).cmd = s.cmd := rfl
@[simp] theorem State.reply_status (s : State) (r : Reply) : (s.reply r).status = s.status := rfl
@[simp] theorem State.reply_crc (s : State) (r : Reply) : (s.reply r).crc = s.crc := rfl
@[simp] theorem State.reply_src (s : State) (r : Reply) : (s.reply r).src = s.src := rfl
@[simp] theorem State.reply_dst (s : State) (r : Reply) : (s.reply r).dst = s.dst := rfl
@[simp] theorem State.reply_len (s : State) (r : Reply) : (s.reply r).len = s.len := rfl
@[simp] theorem State.reply_next (s : State) (r : Reply) : (s.reply r).next = s.next := rfl
@[simp] theorem State.reply_inputs (s : State) (r : Reply) : (s.reply r).inputs = s.inputs := rfl
@[simp] theorem State.reply_replies (s : State) (r : Reply) : (s.reply r).replies = s.replies ++ [r] := rfl

@[simp] theorem State.assertReset_bufSize (s : State) : (s.assertReset).bufSize = s.bufSize := rfl
@[simp] theorem State.assertReset_buf (s : State) : (s.assertReset).buf = [] := rfl
@[simp] theorem State.assertReset_cmd (s : State) : (s.assertReset).cmd = 0x00000000 := rfl
@[simp] theorem State.assertReset_status (s : State) : (s.assertReset).status = 0x00000000 := rfl
@[simp] theorem State.assertReset_crc (s : State) : (s.assertReset).crc = 0x00000000 := rfl
@[simp] theorem State.assertReset_src (s : State) : (s.assertReset).src = 0x00000000 := rfl
@[simp] theorem State.assertReset_dst (s : State) : (s.assertReset).dst = 0x00000000 := rfl
@[simp] theorem State.assertReset_len (s : State) : (s.assertReset).len = 0x00000000 := rfl
@[simp] theorem State.assertReset_next (s : State) : (s.assertReset).next = 0x00000000 := rfl
@[simp] theorem State.assertReset_inputs (s : State) : (s.assertReset).inputs = s.inputs := rfl
@[simp] theorem State.assertReset_replies (s : State) : (s.assertReset).replies = s.replies := rfl

@[simp] theorem State.withHostOps_bufSize (s : State) (ops : List HostOp) : (s.withHostOps ops).bufSize = s.bufSize := rfl
@[simp] theorem State.withHostOps_buf (s : State) (ops : List HostOp) : (s.withHostOps ops).buf = s.buf := rfl
@[simp] theorem State.withHostOps_cmd (s : State) (ops : List HostOp) : (s.withHostOps ops).cmd = s.cmd := rfl
@[simp] theorem State.withHostOps_status (s : State) (ops : List HostOp) : (s.withHostOps ops).status = s.status := rfl
@[simp] theorem State.withHostOps_crc (s : State) (ops : List HostOp) : (s.withHostOps ops).crc = s.crc := rfl
@[simp] theorem State.withHostOps_src (s : State) (ops : List HostOp) : (s.withHostOps ops).src = s.src := rfl
@[simp] theorem State.withHostOps_dst (s : State) (ops : List HostOp) : (s.withHostOps ops).dst = s.dst := rfl
@[simp] theorem State.withHostOps_len (s : State) (ops : List HostOp) : (s.withHostOps ops).len = s.len := rfl
@[simp] theorem State.withHostOps_next (s : State) (ops : List HostOp) : (s.withHostOps ops).next = s.next := rfl
@[simp] theorem State.withHostOps_inputs (s : State) (ops : List HostOp) : (s.withHostOps ops).inputs = s.inputs ++ ops.map .access := rfl
@[simp] theorem State.withHostOps_replies (s : State) (ops : List HostOp) : (s.withHostOps ops).replies = s.replies := rfl

@[simp] theorem State.withFetchWord_bufSize (s : State) (n w : Nat) : (s.withFetchWord n w).bufSize = s.bufSize := rfl
@[simp] theorem State.withFetchWord_buf (s : State) (n w : Nat) : (s.withFetchWord n w).buf = s.buf := rfl
@[simp] theorem State.withFetchWord_cmd (s : State) (n w : Nat) : (s.withFetchWord n w).cmd = s.cmd := rfl
@[simp] theorem State.withFetchWord_status (s : State) (n w : Nat) : (s.withFetchWord n w).status = s.status := rfl
@[simp] theorem State.withFetchWord_crc (s : State) (n w : Nat) : (s.withFetchWord n w).crc = s.crc := rfl
@[simp] theorem State.withFetchWord_src (s : State) (n w : Nat) : (s.withFetchWord n w).src = s.src := rfl
@[simp] theorem State.withFetchWord_dst (s : State) (n w : Nat) : (s.withFetchWord n w).dst = s.dst := rfl
@[simp] theorem State.withFetchWord_len (s : State) (n w : Nat) : (s.withFetchWord n w).len = s.len := rfl
@[simp] theorem State.withFetchWord_next (s : State) (n w : Nat) : (s.withFetchWord n w).next = s.next := rfl
@[simp] theorem State.withFetchWord_inputs (s : State) (n w : Nat) : (s.withFetchWord n w).inputs = .access (.regWrite 0x04 (BitVec.ofNat 32 (w % 2 ^ n))) :: s.inputs := rfl
@[simp] theorem State.withFetchWord_replies (s : State) (n w : Nat) : (s.withFetchWord n w).replies = s.replies := rfl

end Sys2Proof.Machine
end

