-- ==== Sys2Proof/Laws/Exec.lean ====
section
/-! SUPPORT. One inversion lemma per command: everything it can answer, from any state. A command that stores answers a
memory that is `StoredIn` its destination range. -/

namespace Sys2Proof.Machine

/-- `m'` is `m` after stores inside `[base, base + n)` only, canonical and inside BUF if `m` was. -/
def StoredIn (size base n : Nat) (m m' : Memory) : Prop :=
  (Memory.wf m → Memory.wf m') ∧ (Memory.within size m → Memory.within size m') ∧
    ∀ a, a < base ∨ base + n ≤ a → memRead m' a = memRead m a

theorem storedIn_refl (size base n : Nat) (m : Memory) : StoredIn size base n m m := ⟨id, id, fun _ _ => rfl⟩

/-- A model fault of a command: a read of a byte of `[base, base + n)` that nothing has written. -/
def UnwrittenIn (base n : Nat) (m : Memory) (f : Fault) : Prop :=
  ∃ j, j < n ∧ f = .unwrittenRead (base + j) ∧ memRead m (base + j) = none

theorem execCrcClr_eq (s : State) : execCrcClr s = .next ((s.setAcc 0x00).succeed false) := rfl

theorem execCrcB_eq (b : Byte) (s : State) : execCrcB b s = .next ((s.setAcc (crcStep s.acc b)).succeed false) := rfl

theorem execCrcBuf_cases (s : State) :
    (s.bufSize < s.srcAddr + s.lenBytes ∧ execCrcBuf s = .next (s.raise .range)) ∨
    (s.srcAddr + s.lenBytes ≤ s.bufSize ∧
      ((∃ a, execCrcBuf s = .next ((s.setAcc a).succeed false)) ∨
        ∃ f, execCrcBuf s = .fault f ∧ UnwrittenIn s.srcAddr s.lenBytes s.buf f)) := by
  unfold execCrcBuf
  by_cases h : s.rangeInside s.srcAddr s.lenBytes
  · rw [if_pos h]
    refine .inr ⟨rangeInside_iff.1 h, ?_⟩
    cases hl : crcLoop s.lenBytes s.srcAddr s.buf s.acc with
    | error f => exact .inr ⟨f, rfl, crcLoop_error hl⟩
    | ok a => exact .inl ⟨a, rfl⟩
  · rw [if_neg h]
    rw [rangeInside_iff] at h
    exact .inl ⟨by omega, rfl⟩

theorem execStuff_cases (s : State) :
    (256 < s.lenBytes ∧ execStuff s = .next (s.raise .length)) ∨
    (s.lenBytes ≤ 256 ∧ s.bufSize < s.srcAddr + s.lenBytes ∧ execStuff s = .next (s.raise .range)) ∨
    (s.lenBytes ≤ 256 ∧ s.srcAddr + s.lenBytes ≤ s.bufSize ∧
      ((∃ m, execStuff s = .next ({ s with buf := m }.succeed false) ∧
          StoredIn s.bufSize s.srcAddr s.lenBytes s.buf m) ∨
        ∃ f, execStuff s = .fault f ∧ UnwrittenIn s.srcAddr s.lenBytes s.buf f)) := by
  unfold execStuff
  by_cases hL : s.lenBytes > Config.maxStuffLen
  · rw [if_pos hL]
    exact .inl ⟨hL, rfl⟩
  rw [if_neg hL]
  have hL' : s.lenBytes ≤ 256 := Nat.not_lt.1 hL
  by_cases h : s.rangeInside s.srcAddr s.lenBytes
  · rw [if_pos h]
    rw [rangeInside_iff] at h
    refine .inr (.inr ⟨hL', h, ?_⟩)
    by_cases h0 : s.lenBytes = 0
    · exact .inl ⟨s.buf, by rw [h0]; rfl, storedIn_refl _ _ _ _⟩
    cases hl : stuffLoop (s.lenBytes - 1) s.srcAddr 1 0 s.buf with
    | error f =>
      obtain ⟨j, h1, h2, rfl, hn⟩ := stuffLoop_error (by omega) hl
      exact .inr ⟨_, rfl, j, by omega, rfl, hn⟩
    | ok m =>
      obtain ⟨h1, h2, h3⟩ := stuffLoop_frame (by omega) hl
      exact .inl ⟨m, rfl, h1, h2 _ (by omega), fun a ha => h3 a (by omega)⟩
  · rw [if_neg h]
    rw [rangeInside_iff] at h
    exact .inr (.inl ⟨hL', by omega, rfl⟩)

theorem execUnstuff_cases (s : State) :
    (s.lenBytes = 0 ∧ execUnstuff s = .next (s.raise .length)) ∨
    (s.lenBytes ≠ 0 ∧ s.bufSize < s.srcAddr + s.lenBytes ∧ execUnstuff s = .next (s.raise .range)) ∨
    (s.lenBytes ≠ 0 ∧ s.srcAddr + s.lenBytes ≤ s.bufSize ∧
      ((∃ e, execUnstuff s = .next (s.endWalk e) ∧ StoredIn s.bufSize s.srcAddr s.lenBytes s.buf e.buf) ∨
        ∃ f, execUnstuff s = .fault f ∧ UnwrittenIn s.srcAddr s.lenBytes s.buf f)) := by
  unfold execUnstuff
  by_cases hL : s.lenBytes = 0
  · rw [if_pos hL]
    exact .inl ⟨hL, rfl⟩
  rw [if_neg hL]
  by_cases h : s.rangeInside s.srcAddr s.lenBytes
  · rw [if_pos h]
    rw [rangeInside_iff] at h
    refine .inr (.inr ⟨hL, h, ?_⟩)
    cases h0 : load s.buf s.srcAddr with
    | error f =>
      obtain ⟨hn, rfl⟩ := load_eq_error.1 h0
      exact .inr ⟨_, rfl, 0, by omega, rfl, hn⟩
    | ok t =>
      cases hw : s.walkFrom (t.setWidth 16) (memWrite s.buf s.srcAddr Config.sentinel) with
      | error f =>
        obtain ⟨j, hj, rfl, hn⟩ := walk_error_any hw
        rw [memRead_memWrite] at hn
        split at hn
        · cases hn
        · exact .inr ⟨_, by dsimp only; rw [hw]; rfl, j, hj, rfl, hn⟩
      | ok e =>
        obtain ⟨h1, h2, h3, -⟩ := walk_frame hw
        refine .inl ⟨e, by dsimp only; rw [hw]; rfl, fun hm => h1 (memWrite_wf hm _ _),
          fun hm => h2 _ h (memWrite_within hm (by omega) _), fun a ha => ?_⟩
        rw [h3 a ha, memRead_memWrite_other _ _ _ (by omega)]
  · rw [if_neg h]
    rw [rangeInside_iff] at h
    exact .inr (.inl ⟨hL, by omega, rfl⟩)

theorem execUnstuffC_cases (s : State) :
    (s.bufSize < s.srcAddr + s.lenBytes ∧ execUnstuffC s = .next (s.raise .range)) ∨
    (s.srcAddr + s.lenBytes ≤ s.bufSize ∧
      ((∃ e, execUnstuffC s = .next (s.endWalk e) ∧ StoredIn s.bufSize s.srcAddr s.lenBytes s.buf e.buf) ∨
        ∃ f, execUnstuffC s = .fault f ∧ UnwrittenIn s.srcAddr s.lenBytes s.buf f)) := by
  unfold execUnstuffC
  by_cases h : s.rangeInside s.srcAddr s.lenBytes
  · rw [if_pos h]
    rw [rangeInside_iff] at h
    refine .inr ⟨h, ?_⟩
    cases hw : s.walkFrom s.nextIndex s.buf with
    | error f => exact .inr ⟨f, rfl, walk_error_any hw⟩
    | ok e =>
      obtain ⟨h1, h2, h3, -⟩ := walk_frame hw
      exact .inl ⟨e, rfl, h1, h2 _ h, h3⟩
  · rw [if_neg h]
    rw [rangeInside_iff] at h
    exact .inl ⟨by omega, rfl⟩

theorem execHexEnc_cases (s : State) :
    ((s.bufSize < s.srcAddr + s.lenBytes ∨ s.bufSize < s.dstAddr + 2 * s.lenBytes) ∧
      execHexEnc s = .next (s.raise .range)) ∨
    (s.srcAddr + s.lenBytes ≤ s.bufSize ∧ s.dstAddr + 2 * s.lenBytes ≤ s.bufSize ∧
      ((overlap s.srcAddr s.lenBytes s.dstAddr (2 * s.lenBytes) = true ∧
          execHexEnc s = .next (s.raise .overlap)) ∨
        (overlap s.srcAddr s.lenBytes s.dstAddr (2 * s.lenBytes) = false ∧
          ((∃ m, execHexEnc s = .next ({ s with buf := m }.succeed false) ∧
              StoredIn s.bufSize s.dstAddr (2 * s.lenBytes) s.buf m) ∨
            ∃ f, execHexEnc s = .fault f ∧ UnwrittenIn s.srcAddr s.lenBytes s.buf f)))) := by
  unfold execHexEnc
  by_cases h : (s.rangeInside s.srcAddr s.lenBytes && s.rangeInside s.dstAddr (2 * s.lenBytes)) = true
  · rw [if_pos h]
    rw [Bool.and_eq_true, rangeInside_iff, rangeInside_iff] at h
    refine .inr ⟨h.1, h.2, ?_⟩
    cases ho : overlap s.srcAddr s.lenBytes s.dstAddr (2 * s.lenBytes) with
    | true => exact .inl ⟨rfl, rfl⟩
    | false =>
      refine .inr ⟨rfl, ?_⟩
      cases hl : hexEncLoop s.lenBytes s.srcAddr s.dstAddr s.buf with
      | error f => exact .inr ⟨f, rfl, hexEncLoop_error hl⟩
      | ok m =>
        obtain ⟨h1, h2, h3⟩ := hexEncLoop_frame hl
        exact .inl ⟨m, rfl, h1, h2 _ h.2, h3⟩
  · rw [if_neg h]
    rw [Bool.and_eq_true, rangeInside_iff, rangeInside_iff] at h
    exact .inl ⟨by omega, rfl⟩

theorem execHexDec_cases (s : State) :
    ((s.bufSize < s.srcAddr + 2 * s.lenBytes ∨ s.bufSize < s.dstAddr + s.lenBytes) ∧
      execHexDec s = .next (s.raise .range)) ∨
    (s.srcAddr + 2 * s.lenBytes ≤ s.bufSize ∧ s.dstAddr + s.lenBytes ≤ s.bufSize ∧
      ((overlap s.srcAddr (2 * s.lenBytes) s.dstAddr s.lenBytes = true ∧
          execHexDec s = .next (s.raise .overlap)) ∨
        (overlap s.srcAddr (2 * s.lenBytes) s.dstAddr s.lenBytes = false ∧
          ((execHexDec s = .next (s.raise .illegalHex) ∧
              hexValues (2 * s.lenBytes) s.srcAddr s.buf = .ok none) ∨
            (∃ vs, execHexDec s = .next ({ s with buf := hexStore vs s.dstAddr s.buf }.succeed false) ∧
              hexValues (2 * s.lenBytes) s.srcAddr s.buf = .ok (some vs) ∧
              StoredIn s.bufSize s.dstAddr s.lenBytes s.buf (hexStore vs s.dstAddr s.buf)) ∨
            ∃ f, execHexDec s = .fault f ∧ UnwrittenIn s.srcAddr (2 * s.lenBytes) s.buf f)))) := by
  unfold execHexDec
  by_cases h : (s.rangeInside s.srcAddr (2 * s.lenBytes) && s.rangeInside s.dstAddr s.lenBytes) = true
  · rw [if_pos h]
    rw [Bool.and_eq_true, rangeInside_iff, rangeInside_iff] at h
    refine .inr ⟨h.1, h.2, ?_⟩
    cases ho : overlap s.srcAddr (2 * s.lenBytes) s.dstAddr s.lenBytes with
    | true => exact .inl ⟨rfl, rfl⟩
    | false =>
      refine .inr ⟨rfl, ?_⟩
      cases hl : hexValues (2 * s.lenBytes) s.srcAddr s.buf with
      | error f => exact .inr (.inr ⟨f, rfl, hexValues_error hl⟩)
      | ok o =>
        cases o with
        | none => exact .inl ⟨rfl, rfl⟩
        | some vs =>
          obtain ⟨h1, h2, h3⟩ := hexStore_frame (dst := s.dstAddr) (m := s.buf) (hexValues_length hl)
          exact .inr (.inl ⟨vs, rfl, rfl, h1, h2 _ h.2, h3⟩)
  · rw [if_neg h]
    rw [Bool.and_eq_true, rangeInside_iff, rangeInside_iff] at h
    exact .inl ⟨by omega, rfl⟩

/-! ### The two ends of a command -/

@[simp] theorem raise_errcode (s : State) (e : CmdError) : (s.raise e).errcode = e.code := by
  simp [State.raise, State.errcode]

@[simp] theorem raise_term (s : State) (e : CmdError) : (s.raise e).term = false := getLsbD_statusWord _ _

@[simp] theorem succeed_errcode (s : State) (b : Bool) : (s.succeed b).errcode = 0 := by
  simp [State.succeed, State.errcode, okCode]

@[simp] theorem succeed_term (s : State) (b : Bool) : (s.succeed b).term = b := getLsbD_statusWord _ _

/-! ### One step -/

theorem step_idle {s : State} (h : s.inputs = []) : step s = .next s := by
  simp [step, h]

theorem step_cons {s : State} {i : Input} {rest : List Input} (h : s.inputs = i :: rest) :
    step s = takeInput i { s with inputs := rest } := by
  simp [step, h]

/-- A CMD write sets CMD and runs the word. -/
theorem step_cmd {s : State} {w : Word} {rest : List Input} (h : s.inputs = .access (.regWrite 0x04 w) :: rest) :
    step s = runCommand w { s with cmd := w, inputs := rest } := by
  rw [step_cons h]; rfl

theorem runCommand_ok {w : Word} {i : Instr} (h : decode w = .ok i) (s : State) : runCommand w s = exec i s := by
  simp [runCommand, h]

theorem runCommand_error {w : Word} {e : IllegalWord} (h : decode w = .error e) (s : State) :
    runCommand w s = .next (s.raise .illegalCmd) := by
  simp [runCommand, h]

end Sys2Proof.Machine
end

