-- ==== Sys2Proof/Laws/PerInstr.lean ====
section
/-! SUPPORT. Facts about every command as syntax, one lemma per constructor. -/

/-- R64: the command's word selects the row of the opcode map that bears the command's mnemonic, and no other row. -/
def Sys2Proof.Laws.OpcodeMapRow.Statement (i : Sys2Proof.Instr) : Prop :=
  ∀ r ∈ Sys2Proof.opcodeMap, r.selects (Sys2Proof.encode i) = true ↔ r.mnemonic = i.mnemonic

theorem Sys2Proof.Laws.OpcodeMapRow.crcClr : Sys2Proof.Laws.OpcodeMapRow.Statement .crcClr := by
  unfold Sys2Proof.Laws.OpcodeMapRow.Statement; decide

theorem Sys2Proof.Laws.OpcodeMapRow.crcB (imm8 : Sys2Proof.Byte) :
    Sys2Proof.Laws.OpcodeMapRow.Statement (.crcB imm8) := by
  revert imm8; unfold Sys2Proof.Laws.OpcodeMapRow.Statement; decide

theorem Sys2Proof.Laws.OpcodeMapRow.crcBuf : Sys2Proof.Laws.OpcodeMapRow.Statement .crcBuf := by
  unfold Sys2Proof.Laws.OpcodeMapRow.Statement; decide

theorem Sys2Proof.Laws.OpcodeMapRow.stuff : Sys2Proof.Laws.OpcodeMapRow.Statement .stuff := by
  unfold Sys2Proof.Laws.OpcodeMapRow.Statement; decide

theorem Sys2Proof.Laws.OpcodeMapRow.unstuff : Sys2Proof.Laws.OpcodeMapRow.Statement .unstuff := by
  unfold Sys2Proof.Laws.OpcodeMapRow.Statement; decide

theorem Sys2Proof.Laws.OpcodeMapRow.unstuffC : Sys2Proof.Laws.OpcodeMapRow.Statement .unstuffC := by
  unfold Sys2Proof.Laws.OpcodeMapRow.Statement; decide

theorem Sys2Proof.Laws.OpcodeMapRow.hexEnc : Sys2Proof.Laws.OpcodeMapRow.Statement .hexEnc := by
  unfold Sys2Proof.Laws.OpcodeMapRow.Statement; decide

theorem Sys2Proof.Laws.OpcodeMapRow.hexDec : Sys2Proof.Laws.OpcodeMapRow.Statement .hexDec := by
  unfold Sys2Proof.Laws.OpcodeMapRow.Statement; decide
end

