-- ==== Sys2Proof/WellFormed.lean ====
section
/-! DEFINITION. Which terms of Syntax stand for something the spec can say. A command is well-formed by its type
(its one operand is a `Byte`); the operands of program lines and the numbers of host operations are checked. -/

namespace Sys2Proof

/-- R62: CRC.B's immediate is any byte, and no other command has a field, so every term is well-formed. -/
def Instr.wf : Instr → Bool
  | .crcClr => true
  | .crcB _ => true
  | .crcBuf => true
  | .stuff => true
  | .unstuff => true
  | .unstuffC => true
  | .hexEnc => true
  | .hexDec => true

/-- R67: an operand byte "must be 0 to 255"; a quoted character is an ASCII one (R6). -/
def Literal.wf : Literal → Bool
  | .decimal n => decide (n ≤ 255)
  | .hex n => decide (n ≤ 255)
  | .quoted c => decide (c.toNat < 128)

/-- R68: a quoted string of a `BW` line is an ASCII string. -/
def ByteItem.wf : ByteItem → Bool
  | .lit l => l.wf
  | .text cs => cs.all fun c => decide (c.toNat < 128)

/-- A program line whose operands are ones R67 and R68 allow: a `BW` line lists at least one byte. -/
def Line.wf : Line → Bool
  | .crcByte l => l.wf
  | .bw _ bytes => !bytes.isEmpty && bytes.all ByteItem.wf
  | .command i => i.wf
  | .wr _ _ => true
  | .rd _ => true
  | .br _ _ => true
  | .checksum _ _ => true
  | .crcSet _ => true
  | .stuffB _ _ => true
  | .unstuffB _ _ => true
  | .unstuffC _ => true
  | .hexEnc _ _ _ => true
  | .hexDec _ _ _ => true
  | .rawCmd _ => true

/-- R41, R42: the accesses that are no host access error on a block with `size` bytes of BUF. -/
def HostOp.wf (size : Nat) : HostOp → Bool
  | .regRead off => decide (off % 4 = 0 ∧ off < 0x20)
  | .regWrite off _ => decide (off % 4 = 0 ∧ off < 0x20)
  | .bufRead a => decide (a < size)
  | .bufWrite a _ => decide (a < size)

end Sys2Proof
end

