-- ==== Sys2Proof/Tests/Slice0.lean ====
section
/-! SUPPORT. The model's own tests. Every expected value is the spec's: the section of 95_test_vectors.md or the rule that
gives it stands at the test. The last part shows, for every statement with hypotheses, values that meet them. -/

namespace Sys2Proof.Tests

open Sys2Proof.Machine

/-- The bytes `vs` at `a` and up. -/
def mem (a : Nat) : List Byte → Memory
  | [] => []
  | v :: vs => (a, v) :: mem (a + 1) vs

/-- The reset state with the given bytes and registers. -/
def st (m : Memory) (src dst len : Word) (next : Word := 0) (crc : Word := 0) : State :=
  { State.reset with buf := m, src := src, dst := dst, len := len, next := next, crc := crc }

/-- The state a step or a command leads to, if it leads to one. -/
def after (o : Host.Outcome State Fault Refusal) : Option State :=
  match o with
  | .next t => some t
  | .fault _ => none
  | .refused _ => none

/-- The fault it ends in, if it does. -/
def faultOf (o : Host.Outcome State Fault Refusal) : Option Fault :=
  match o with
  | .next _ => none
  | .fault f => some f
  | .refused _ => none

/-- What STUFF, UNSTUFF and the HEX commands leave in BUF, NEXT and STATUS. -/
def bufNextStatus (o : Host.Outcome State Fault Refusal) : Option (Memory × Word × Word) :=
  (after o).map fun t => (t.buf, t.next, t.status)

/-- What the CRC commands leave in CRC and STATUS. -/
def crcStatus (o : Host.Outcome State Fault Refusal) : Option (Word × Word) :=
  (after o).map fun t => (t.crc, t.status)

theorem next_of_after {o : Host.Outcome State Fault Refusal} {t : State} (h : after o = some t) : o = .next t := by
  cases o with
  | next s => simpa [after] using h
  | fault f => cases h
  | refused r => cases h

theorem fault_of_faultOf {o : Host.Outcome State Fault Refusal} {f : Fault} (h : faultOf o = some f) : o = .fault f := by
  cases o with
  | next s => cases h
  | fault g => simpa [faultOf] using h
  | refused r => cases h

/-! ### WellFormed: an ill-formed term for each check -/

theorem test_wf_crcB : (Instr.crcB 0xFF).wf = true := by decide
theorem test_wf_decimal : (Literal.decimal 255).wf = true ∧ (Literal.decimal 256).wf = false := by decide
theorem test_wf_hex : (Literal.hex 0xFF).wf = true ∧ (Literal.hex 0x100).wf = false := by decide
theorem test_wf_quoted : (Literal.quoted 'A').wf = true ∧ (Literal.quoted 'é').wf = false := by decide
theorem test_wf_text : (ByteItem.text ['1', 'f']).wf = true ∧ (ByteItem.text ['1', 'é']).wf = false := by decide
theorem test_wf_item : (ByteItem.lit (.decimal 300)).wf = false := by decide
theorem test_wf_bw : (Line.bw 0 [.text ['1']]).wf = true ∧ (Line.bw 0 []).wf = false ∧
    (Line.bw 0 [.lit (.hex 0x1FF)]).wf = false := by decide
theorem test_wf_crcByte : (Line.crcByte (.quoted 'A')).wf = true ∧ (Line.crcByte (.decimal 256)).wf = false := by decide
theorem test_wf_regRead : (HostOp.regRead 0x1C).wf 1024 = true ∧ (HostOp.regRead 0x20).wf 1024 = false ∧
    (HostOp.regRead 0x06).wf 1024 = false := by decide
theorem test_wf_regWrite : (HostOp.regWrite 0x1C 0).wf 1024 = true ∧ (HostOp.regWrite 0x20 0).wf 1024 = false ∧
    (HostOp.regWrite 0x1D 0).wf 1024 = false := by decide
theorem test_wf_bufRead : (HostOp.bufRead 1023).wf 1024 = true ∧ (HostOp.bufRead 1024).wf 1024 = false := by decide
theorem test_wf_bufWrite : (HostOp.bufWrite 1023 0).wf 1024 = true ∧ (HostOp.bufWrite 1024 0).wf 1024 = false := by
  decide

/-! ### Decode: words written out from R64's patterns, and the illegal words of 95_test_vectors.md section 5 -/

theorem test_decode_crcClr : decode 0b00000000000000000000000000000001 = .ok .crcClr := by rfl
theorem test_decode_crcB : decode 0b00000000000000001010010100000010 = .ok (.crcB 0b10100101) := by rfl
theorem test_decode_crcBuf : decode 0b00000000000000000000000000000011 = .ok .crcBuf := by rfl
theorem test_decode_stuff : decode 0b00000000000000000000000000010000 = .ok .stuff := by rfl
theorem test_decode_unstuff : decode 0b00000000000000000000000000010001 = .ok .unstuff := by rfl
theorem test_decode_unstuffC : decode 0b00000000000000000000000000010010 = .ok .unstuffC := by rfl
theorem test_decode_hexEnc : decode 0b00000000000000000000000000100000 = .ok .hexEnc := by rfl
theorem test_decode_hexDec : decode 0b00000000000000000000000000100001 = .ok .hexDec := by rfl

/-- The illegal words of section 5, and 0x00010010 of the priority vectors. -/
theorem test_decode_illegal : ([0x00000000, 0x00000101, 0x00010002, 0x80000003, 0x00000004, 0x0000000F, 0x00000013,
    0x00000022, 0x000000FF, 0x00000110, 0xFFFFFFFF, 0x00010010] : List Word).all
      (fun w => (decode w).toOption.isNone) = true := by decide

/-- R67's example: `CRC.B 0x41` is `WR CMD, 0x00004102`. -/
theorem test_encode_crcB : commandOp (.crcB 0x41) = .regWrite 0x04 0x00004102 := by rfl

theorem test_decodeTableWord : decodeTableWord 32 0x00004102 = some (.crcB 0x41) ∧ decodeTableWord 32 0x20 = some .hexEnc ∧
    decodeTableWord 32 0 = none := by decide

/-- A step after `withFetchWord` runs the word: CMD holds it, and CRC.B absorbs its byte (section 2.3). -/
theorem test_withFetchWord : (after (step (State.reset.withFetchWord 32 0x00004102))).map (fun t => (t.cmd, t.crc)) =
    some (0x00004102, 0x000000B8) := by decide

/-! ### One command at a time: 95_test_vectors.md sections 2.4, 3 and 4 -/

theorem test_crcClr : crcStatus (exec .crcClr (st [] 0 0 0 0 0xB8)) = some (0x00, 0) := by decide

/-- Section 2.3: an odd accumulator, and `FF ^ FF`. -/
theorem test_crcB_odd : crcStatus (exec (.crcB 0x00) (st [] 0 0 0 0 0x01)) = some (0xA6, 0) := by decide
theorem test_crcB_cancel : crcStatus (exec (.crcB 0xFF) (st [] 0 0 0 0 0xFF)) = some (0x00, 0) := by decide

set_option maxRecDepth 20000 in
theorem test_crcBuf_request :
    crcStatus (exec .crcBuf (st (mem 0x100 [0x41, 0x00, 0x02, 0x01, 0x02]) 0x100 0 5)) = some (0xFE, 0) := by decide
theorem test_crcBuf_empty_range : crcStatus (exec .crcBuf (st [] 0x401 0 0 0 0x5A)) = some (0x5A, 2) := by decide

theorem test_stuff_request :
    bufNextStatus (exec .stuff (st (mem 0 [0x00, 0x41, 0x00, 0x02, 0x01, 0x02, 0xFE, 0x00]) 0 0 8)) =
      some (mem 0 [0x02, 0x41, 0x05, 0x02, 0x01, 0x02, 0xFE, 0x00], 0, 0) := by decide
/-- LENGTH before RANGE. -/
theorem test_stuff_length : bufNextStatus (exec .stuff (st [] 0x3FF 0 300)) = some ([], 0, 3) := by decide

/-- The header pass: the jump 2 -> 7 leaves byte 7 unvisited. -/
theorem test_unstuff_header :
    bufNextStatus (exec .unstuff (st (mem 0 [0x02, 0x41, 0x05, 0x02, 0x01, 0x02, 0xFE, 0x00]) 0 0 4)) =
      some (mem 0 [0x00, 0x41, 0x00, 0x02, 0x01, 0x02, 0xFE, 0x00], 7, 0) := by decide
/-- The chain lands on a data byte and jumps. -/
theorem test_unstuff_malformed :
    bufNextStatus (exec .unstuff (st (mem 0 [0x03, 0x09, 0x09, 0xC8, 0x00]) 0 0 5)) =
      some (mem 0 [0x00, 0x09, 0x09, 0x00, 0x00], 203, 0) := by decide

theorem test_unstuffC_from_next :
    bufNextStatus (exec .unstuffC (st (mem 0 [0x11, 0x02, 0x22, 0x00, 0x00]) 0 0 5 1)) =
      some (mem 0 [0x11, 0x00, 0x22, 0x00, 0x00], 3, 0x100) := by decide
theorem test_unstuffC_range : bufNextStatus (exec .unstuffC (st [] 0x400 0 1 3)) = some ([], 3, 2) := by decide

theorem test_hexEnc_digits :
    bufNextStatus (exec .hexEnc (st (mem 0 [0x00, 0x1F, 0xA0, 0xFF]) 0 16 4)) =
      some (mem 0 [0x00, 0x1F, 0xA0, 0xFF] ++ mem 16 [0x30, 0x30, 0x31, 0x46, 0x41, 0x30, 0x46, 0x46], 0, 0) := by decide
/-- Both ranges fit and overlap. -/
theorem test_hexEnc_overlap : bufNextStatus (exec .hexEnc (st [] 0x3FE 0x3FD 1)) = some ([], 0, 5) := by decide

theorem test_hexDec_mixed_case :
    bufNextStatus (exec .hexDec (st (mem 0 [0x31, 0x66, 0x41, 0x30]) 0 100 2)) =
      some (mem 0 [0x31, 0x66, 0x41, 0x30] ++ mem 100 [0x1F, 0xA0], 0, 0) := by decide
/-- "G" at BUF[0], BUF[1] unwritten: the scan stops at BUF[0] (D18). -/
theorem test_hexDec_stops_at_invalid :
    bufNextStatus (exec .hexDec (st (mem 0 [0x47] ++ mem 100 [0xEE]) 0 100 1)) =
      some (mem 0 [0x47] ++ mem 100 [0xEE], 0, 4) := by decide

set_option maxRecDepth 20000 in
/-- Section 2.2, law 9 of R82: the order of the bytes matters. -/
theorem test_checksum_order : checksum [0x01, 0x02] = 0x92 ∧ checksum [0x02, 0x01] = 0x56 := by decide

/-! ### Host operations and program lines -/

/-- R23: PARAM on this hardware. -/
theorem test_read_param : (after (step { State.reset with inputs := [.access (.regRead 0)] })).map State.replies =
    some [.word 0x040000A6] := by decide
/-- R31: w[31:16] of a write to SRC is ignored. -/
theorem test_write_src : (after (step { State.reset with inputs := [.access (.regWrite 0x10 0x12345678)] })).map State.src =
    some 0x00005678 := by decide
/-- R68: one BufWrite per character of a quoted string. -/
theorem test_expand_bw : expand (.bw 5 [.text ['1', 'f'], .lit (.hex 0x0A)]) =
    some [.bufWrite 5 0x31, .bufWrite 6 0x66, .bufWrite 7 0x0A] := by decide
/-- R69: the expansion of `HEXDEC s, d, n`. -/
theorem test_expand_hexdec : expand (.hexDec 1 2 3) =
    some [.regWrite 0x10 1, .regWrite 0x14 2, .regWrite 0x18 3, .regWrite 0x04 0x21] := by decide

/-! ### Witnesses: for every statement with hypotheses, values that meet all of them, for each of its clauses. A clause
about a command's next state or fault is shown at a case where that next state or fault occurs. -/

/-- The invariant as a test. -/
def invB (s : State) : Bool :=
  decide (Config.bufSizeMin ≤ s.bufSize ∧ s.bufSize ≤ Config.bufSizeMax ∧ Memory.wf s.buf ∧
    Memory.within s.bufSize s.buf ∧ LegalStatus s.status ∧ s.crc.toNat < 2 ^ 8 ∧ s.src.toNat < 2 ^ 16 ∧
    s.dst.toNat < 2 ^ 16 ∧ s.len.toNat < 2 ^ 16 ∧ s.next.toNat < 2 ^ 16)

theorem inv_of {s : State} (h : invB s = true) : s.Inv := by
  obtain ⟨h1, h2, h3, h4, h5, h6, h7, h8, h9, h10⟩ := of_decide_eq_true h
  exact ⟨h1, h2, h3, h4, h5, h6, h7, h8, h9, h10⟩

/-- The reset state with inputs pending. -/
def pend (ins : List Input) : State := { State.reset with inputs := ins }

/-- A host write of `w` to CMD. -/
def cmdWrite (w : Word) : Input := .access (.regWrite 0x04 w)

/-- The E2 request before and after STUFF (95_test_vectors.md E2). -/
def raw : List Byte := [0x00, 0x41, 0x00, 0x02, 0x01, 0x02, 0xFE, 0x00]
def stuffed : List Byte := [0x02, 0x41, 0x05, 0x02, 0x01, 0x02, 0xFE, 0x00]

/-- Element `i` of a byte list, for statements that name bytes by index. -/
def nth (xs : List Byte) (i : Nat) : Byte := xs.getD i 0

theorem witness_ResetInputRestoresResetState : (pend [.reset, .reset]).inputs = .reset :: [.reset] := by decide

theorem witness_StepKeepsInvariant : ∃ s t : State, s.Inv ∧ step s = .next t ∧ t.buf ≠ s.buf :=
  ⟨{ st (mem 0x3F8 stuffed) 0x3F8 0 8 with inputs := [cmdWrite 0x11] }, _,
    inv_of (by decide), rfl, by decide⟩

theorem witness_StepFaultsOnlyAsTheRulesSay : faultOf (step (pend [.access (.regRead 0x20)])) = some (.registerOffset 0x20) ∧
    faultOf (step (pend [.access (.regWrite 0x1D 0)])) = some (.registerOffset 0x1D) ∧
    faultOf (step (pend [.access (.bufWrite 1024 0)])) = some (.bufferAddress 1024) ∧
    faultOf (step (pend [.access (.bufRead 1024)])) = some (.bufferAddress 1024) ∧
    faultOf (step (pend [.access (.bufRead 1023)])) = some (.unwrittenRead 1023) ∧
    faultOf (step { st [] 0x3FF 0 1 with inputs := [cmdWrite 0x03] }) = some (.unwrittenRead 0x3FF) := by decide

theorem witness_IdleStepChangesNothing : State.reset.inputs = [] := by decide

theorem witness_RunEndsWithNothingPending : ∃ t, (pend [.access (.bufWrite 1023 7), cmdWrite 0x01]).runToEnd = .next t := ⟨_, rfl⟩

theorem witness_StepRunsDecodedCommand : decode 0x00000001 = .ok .crcClr ∧ decode 0x00000000 = .error .unknownOpcode ∧
    (pend [cmdWrite 0x01]).inputs = .access (.regWrite 0x04 0x01) :: [] ∧
    (pend [.access (.regRead 0x04)]).inputs = .access (.regRead 0x04) :: [] := by
  refine ⟨rfl, rfl, rfl, rfl⟩

/-- R60's fields of a word: OPC, IMM8, RSVD. -/
def fields (w : Word) : Nat × Nat × Nat := (w.toNat % 2 ^ 8, w.toNat / 2 ^ 8 % 2 ^ 8, w.toNat / 2 ^ 16)

theorem witness_CmdWriteSelectsCommand : (pend [cmdWrite 0x01]).inputs = .access (.regWrite 0x04 0x01) :: [] ∧
    fields 0x00010002 = (0x02, 0, 1) ∧ fields 0x00000000 = (0, 0, 0) ∧ fields 0x000000FF = (0xFF, 0, 0) ∧
    fields 0x00000101 = (0x01, 1, 0) ∧ fields 0x0000FF02 = (0x02, 0xFF, 0) ∧ fields 0x00000002 = (0x02, 0, 0) ∧
    [0x01, 0x03, 0x10, 0x11, 0x12, 0x20, 0x21].map fields =
      [(0x01, 0, 0), (0x03, 0, 0), (0x10, 0, 0), (0x11, 0, 0), (0x12, 0, 0), (0x20, 0, 0), (0x21, 0, 0)] := by decide

theorem witness_HostReadsChangeNothing : State.Inv { st (mem 1023 [0x7F]) 1 2 3 with inputs := [.access (.bufRead 1023)] } ∧
    (1023 < (st (mem 1023 [0x7F]) 1 2 3).bufSize ∧ memRead (st (mem 1023 [0x7F]) 1 2 3).buf 1023 = some 0x7F) ∧
    State.Inv { st [] 1 2 3 with inputs := [.access (.regRead (offsetOf .next))] } :=
  ⟨inv_of (by decide), by decide,
    inv_of (by decide)⟩

theorem witness_RegisterFieldsReadAndWrite : [RegName.param, .status, .crc, .src, .dst, .len, .next].all (fun r =>
    (pend [.access (.regWrite (offsetOf r) 0xFFFFFFFF)]).inputs = [.access (.regWrite (offsetOf r) 0xFFFFFFFF)]) = true := by
  decide

theorem witness_ParamIsConstant : (st [] 1 2 3).Inv ∧ (∃ s t, step s = .next t ∧ s.inputs ≠ []) ∧
    (pend [.access (.regWrite 0x00 5)]).inputs = .access (.regWrite 0x00 5) :: [] :=
  ⟨inv_of (by decide),
    ⟨pend [cmdWrite 1], _, rfl, by decide⟩, rfl⟩

theorem witness_UnmappedOffsetIsHostAccessError : (0x20 % 4 ≠ 0 ∨ 0x20 ≤ 0x20) ∧ (0x1F % 4 ≠ 0 ∨ 0x20 ≤ 0x1F) ∧ (0x1C % 4 = 0 ∧ 0x1C < 0x20) ∧
    (0x04 % 4 = 0 ∧ 0x04 < 0x20) ∧
    faultOf (step { st [] 0 0 1 with inputs := [cmdWrite 0x03] }) = some (.unwrittenRead 0) := by decide

theorem witness_BufferAccesses : State.reset.bufSize ≤ 1024 ∧ 1023 < State.reset.bufSize ∧
    memRead State.reset.buf 1023 = none ∧ (pend [.access (.bufRead 1023)]).inputs = .access (.bufRead 1023) :: [] ∧
    (pend [.access (.bufWrite 1023 5)]).inputs = .access (.bufWrite 1023 5) :: [] := by decide

theorem witness_NextReadSeesTheWrite :
    (pend [.access (.regWrite (offsetOf .next) 0xFFFFFFFF), .access (.regRead (offsetOf .next))]).inputs =
      .access (.regWrite (offsetOf .next) 0xFFFFFFFF) :: .access (.regRead (offsetOf .next)) :: [] ∧
    1023 < State.reset.bufSize ∧ (pend [.access (.bufWrite 1023 5), .access (.bufRead 1023)]).inputs =
      .access (.bufWrite 1023 5) :: .access (.bufRead 1023) :: [] := by decide

theorem witness_DecodeEncodeAgree : decode 0x0000FF02 = .ok (.crcB 0xFF) := by rfl

theorem witness_DecodeFollowsOpcodeMap : (⟨"CRC.B", 0x00000002, 0xFFFF00FF⟩ : OpcodeRow) ∈ opcodeMap ∧
    OpcodeRow.selects ⟨"CRC.B", 0x00000002, 0xFFFF00FF⟩ 0x0000FF02 = true ∧
    ∀ r ∈ opcodeMap, r.selects 0x00000102 = decide (r.mnemonic = "CRC.B") ∧ r.selects 0x00000013 = false := by decide

theorem witness_IllegalWordOnlySetsStatus : (∀ r ∈ opcodeMap, r.selects 0x00000101 = false) ∧
    (pend [cmdWrite 0x101]).inputs = .access (.regWrite 0x04 0x101) :: [] := by decide

theorem witness_CommandLineRunsItsCommand : (pend [.access (commandOp .hexDec)]).inputs = .access (commandOp .hexDec) :: [] := by decide

theorem holds_raw : (st (mem 0 raw) 0 0 8).holds 0 raw := by unfold State.holds; decide

theorem witness_CrcBufResult : (st [] 0x401 0 0).bufSize < (st [] 0x401 0 0).srcAddr + (st [] 0x401 0 0).lenBytes ∧
    ((st [] 0x400 0 0).srcAddr + (st [] 0x400 0 0).lenBytes ≤ (st [] 0x400 0 0).bufSize) ∧
    ((st (mem 0 raw) 0 0 8).holds 0 raw ∧ raw.length = (st (mem 0 raw) 0 0 8).lenBytes) ∧
    (st (mem 0x3FE [0x41]) 0x3FE 0 2).srcAddr + 2 ≤ 1024 ∧
    (∀ i, i < 1 → memRead (mem 0x3FE [0x41]) (0x3FE + i) ≠ none) ∧ memRead (mem 0x3FE [0x41]) (0x3FE + 1) = none :=
  ⟨by decide, by decide, ⟨holds_raw, by decide⟩, by decide, by decide, by decide⟩

/-- R86 with the message of section 2.4, split three ways. -/
theorem witness_AnySplitGivesChecksum : (st (mem 0 raw) 0 0 8).Inv ∧
    0 + ([AbsorbPart.range [0x00, 0x41], .byte 0x00, .range [0x02, 0x01, 0x02, 0xFE, 0x00]].flatMap AbsorbPart.bytes).length
      ≤ 1024 ∧
    (st (mem 0 raw) 0 0 8).holds 0
      ([AbsorbPart.range [0x00, 0x41], .byte 0x00, .range [0x02, 0x01, 0x02, 0xFE, 0x00]].flatMap AbsorbPart.bytes) :=
  ⟨inv_of (by decide), by decide, holds_raw⟩

theorem witness_ChecksumEvenAndBlindTo0xD3 : 8 ≤ 8 ∧ (0x00D3#16 <<< 8).extractLsb' 8 8 = 0xD3 := by decide
theorem witness_ChecksumIsLinear : [(1 : Byte), 2].length = [(3 : Byte), 4].length := by decide
theorem witness_SingleBitErrorIsDetected : 7 < 8 ∧ (1#8 <<< 7) = 0x80 := by decide
theorem witness_BitErrors127ApartAreNotDetected : (List.replicate 14 (0 : Byte)).length = 14 ∧
    (List.replicate 15 (0 : Byte)).length = 15 ∧ 6 < 7 := by decide

theorem witness_ChecksumPseudoInstruction : ∃ ops, expand (.checksum 0 8) = some ops ∧
    State.Inv { st (mem 0 raw) 0 0 8 with inputs := ops.map .access ++ [] } ∧ (0 : Word).toNat + (8 : Word).toNat ≤ 1024 ∧
    raw.length = (8 : Word).toNat ∧ (st (mem 0 raw) 0 0 8).holds (0 : Word).toNat raw :=
  ⟨_, rfl, inv_of (by decide), by decide,
    by decide, holds_raw⟩

theorem witness_StuffWritesOffsets : 256 < (st [] 0 0 257).lenBytes ∧
    ((st [] 0x301 0 256).lenBytes ≤ 256 ∧ (st [] 0x301 0 256).bufSize < (st [] 0x301 0 256).srcAddr + 256) ∧
    ((st (mem 0 raw) 0 0 8).lenBytes = 8 ∧ (st (mem 0 raw) 0 0 8).srcAddr + 8 ≤ 1024 ∧
      (∀ i, i < 8 → 1 ≤ i → memRead (st (mem 0 raw) 0 0 8).buf (0 + i) = some (nth raw i)) ∧
      nth raw 2 = 0x00 ∧ nth raw 7 = 0x00 ∧ ∀ k, k < 7 → 2 < k → nth raw k ≠ 0x00) ∧
    memRead (mem 1 [0x41]) (0 + 1) ≠ none ∧ memRead (mem 1 [0x41]) (0 + 2) = none ∧
    faultOf (exec .stuff (st (mem 1 [0x41]) 0 0 3)) = some (.unwrittenRead 2) := by decide

/-- The E2 request ends in a terminator; `00 00 01` of section 3.1 does not. -/
theorem witness_StuffedBufferIsAnOffsetChain : (2 ≤ (st (mem 0 raw) 0 0 8).lenBytes ∧ nth raw ((st (mem 0 raw) 0 0 8).lenBytes - 1) = 0x00) ∧
    (∀ i, i < 3 → 1 ≤ i → memRead (mem 0 [0x00, 0x00, 0x01]) (0 + i) = some (nth [0x00, 0x00, 0x01] i)) ∧
    memRead (mem 0 [0x00, 0x00, 0x01]) (0 + 1) = some 0x00 ∧ (∀ j, j < 3 → 1 < j → nth [0x00, 0x00, 0x01] j ≠ 0x00) := by
  decide

theorem witness_WalkEndsWithinLen : (st (mem 0 stuffed) 0 0 8).bufSize ≤ 32768 ∧ 0 + (st (mem 0 stuffed) 0 0 8).lenBytes ≤ 1024 ∧
    (∃ e, (st (mem 0 stuffed) 0 0 8).walkFrom 0 (mem 0 stuffed) = .ok e ∧ e.term = true ∧ e.next = 7) ∧
    ∃ e, (st (mem 0 stuffed) 0 0 4).walkFrom 0 (mem 0 stuffed) = .ok e ∧ e.term = false ∧ e.next = 7 :=
  ⟨by decide, by decide, ⟨_, rfl, rfl, rfl⟩, _, rfl, rfl, rfl⟩

/-- The chain of the stuffed E2 request: 0, 2, then 7. -/
theorem chain_stuffed (len : Nat) (h : 2 < len) : Hops (nth stuffed) len 0 [0, 2] 7 :=
  .hop (by omega) (by decide) (.hop h (by decide) .here)

theorem witness_UnstuffFollowsChainFromFirstAnchor : (st [] 0 0 0).lenBytes = 0 ∧
    ((st [] 0x400 0 1).lenBytes ≠ 0 ∧ (st [] 0x400 0 1).bufSize < (st [] 0x400 0 1).srcAddr + 1) ∧
    ((st (mem 0 stuffed) 0 0 8).bufSize ≤ 32768 ∧ (st (mem 0 stuffed) 0 0 8).lenBytes = 8) ∧
    (Hops (nth stuffed) 8 0 [0, 2] 7 ∧ Hops (nth stuffed) 4 0 [0, 2] 7) ∧
    (∀ p ∈ [0, 2], memRead (mem 0 stuffed) (0 + p) = some (nth stuffed p)) ∧ 4 ≤ 7 ∧ 7 < 8 ∧
    memRead (mem 0 stuffed) (0 + 7) = some 0x00 ∧
    (Hops (nth [0x01]) 2 0 [0] 1 ∧ memRead (mem 0 [0x01]) (0 + 0) = some (nth [0x01] 0) ∧
      memRead (mem 0 [0x01]) (0 + 1) = none) :=
  ⟨by decide, by decide, by decide, ⟨chain_stuffed 8 (by decide), chain_stuffed 4 (by decide)⟩, by decide, by decide,
    by decide, by decide, .hop (by decide) (by decide) .here, by decide, by decide⟩

theorem witness_UnstuffCFollowsChainFromNext : (st [] 0x400 0 1).bufSize < (st [] 0x400 0 1).srcAddr + (st [] 0x400 0 1).lenBytes ∧
    (st (mem 0 stuffed) 0 0 8 2).nextIndex.toNat = 2 ∧ Hops (nth stuffed) 8 2 [2] 7 ∧
    ((st [] 0x400 0 0 0).Inv ∧ (st [] 0x400 0 0 0).srcAddr + (st [] 0x400 0 0 0).lenBytes ≤ 1024 ∧
      (st [] 0x400 0 0 0).lenBytes ≤ (st [] 0x400 0 0 0).nextIndex.toNat) :=
  ⟨by decide, by decide, .hop (by decide) (by decide) .here,
    inv_of (by decide), by decide, by decide⟩

theorem witness_IncrementalUnstuffIsExact : (st (mem 0 stuffed) 0 0 0).Inv ∧ 1 ≤ 4 ∧ 4 ≤ 8 ∧ (st (mem 0 stuffed) 0 0 0).srcAddr + 8 ≤ 1024 ∧
    (∃ t, exec .unstuff { st (mem 0 stuffed) 0 0 0 with len := BitVec.ofNat 32 4 } = .next t) ∧
    exec .unstuff { st (mem 0 [0x01]) 0 0 0 with len := BitVec.ofNat 32 2 } = .fault (.unwrittenRead 1) :=
  ⟨inv_of (by decide), by decide, by decide,
    by decide, ⟨_, rfl⟩, rfl⟩

/-- A sequence that starts with 0x00; one that does not, with a 0x00 later; one that holds no 0x00 (section 3.1). -/
theorem witness_StuffUnstuffRoundTrip : ((st (mem 0 raw) 0 0 8).Inv ∧ raw[0]? = some 0x00 ∧ (st (mem 0 raw) 0 0 8).holds 0 raw) ∧
    ((st (mem 0 [0x33, 0x00]) 0 0 2).Inv ∧ ([0x33, 0x00] : List Byte)[0]? ≠ some 0x00) ∧
    ((st (mem 0x3FE [0x33, 0x44]) 0x3FE 0 2).Inv ∧ (st (mem 0x3FE [0x33, 0x44]) 0x3FE 0 2).srcAddr + 2 ≤ 1024 ∧
      (∀ j, 1 ≤ j → ([0x33, 0x44] : List Byte)[j]? ≠ some 0x00)) := by
  refine ⟨⟨inv_of (by decide), by decide,
    holds_raw⟩, ⟨inv_of (by decide),
    by decide⟩, inv_of (by decide),
    by decide, fun j hj => ?_⟩
  match j with
  | 1 => decide
  | j + 2 => simp

theorem witness_HexEncResult : (st [] 0 342 342).bufSize < (st [] 0 342 342).dstAddr + 2 * (st [] 0 342 342).lenBytes ∧
    ((st [] 0 341 341).srcAddr + 341 ≤ 1024 ∧ (st [] 0 341 341).dstAddr + 2 * 341 ≤ 1024 ∧
      ¬(0 < (st [] 0 341 341).lenBytes ∧ 0 < 341 + 2 * 341 ∧ 341 < 0 + 341)) ∧
    (0 < (st [] 0x3FE 0x3FD 1).lenBytes ∧ (st [] 0x3FE 0x3FD 1).srcAddr < (st [] 0x3FE 0x3FD 1).dstAddr + 2 * 1 ∧
      (st [] 0x3FE 0x3FD 1).dstAddr < (st [] 0x3FE 0x3FD 1).srcAddr + 1) ∧
    (st (mem 0 raw) 0 8 8).lenBytes = raw.length ∧
    faultOf (exec .hexEnc (st (mem 0 [0xFF]) 0 8 2)) = some (.unwrittenRead 1) := by decide

theorem witness_HexDecResult : (st [] 0x3FF 0 1).bufSize < (st [] 0x3FF 0 1).srcAddr + 2 * (st [] 0x3FF 0 1).lenBytes ∧
    (0 < (st [] 0 1 1).lenBytes ∧ (st [] 0 1 1).srcAddr < (st [] 0 1 1).dstAddr + 1 ∧
      (st [] 0 1 1).dstAddr < (st [] 0 1 1).srcAddr + 2 * 1) ∧
    (¬(0 < (st [] 0 2 1).lenBytes ∧ (st [] 0 2 1).srcAddr < (st [] 0 2 1).dstAddr + 1 ∧
      (st [] 0 2 1).dstAddr < (st [] 0 2 1).srcAddr + 2 * 1)) ∧
    (∀ j, j < 2 * 2 → hexVal (nth [0x31, 0x66, 0x41, 0x30] j) ≠ none) ∧
    (hexVal 0x47 = none ∧ memRead (mem 0 [0x47]) 0 = some 0x47 ∧ hexVal 0x30 = some 0) ∧
    faultOf (exec .hexDec (st (mem 0 [0x30]) 0 2 1)) = some (.unwrittenRead 1) := by decide

theorem witness_OverlapMeansASharedAddress : overlap 0x3FE 1 0x3FD 2 = true ∧ overlap 0 2 1 1 = true ∧ overlap 0 1 1 2 = false ∧
    (st [] 0x3FE 0x3FD 1).srcAddr + 1 ≤ 1024 ∧ (st [] 0x3FE 0x3FD 1).dstAddr + 2 * 1 ≤ 1024 := by decide

/-- HEX.ENC 0 -> 16 and HEX.DEC 16 -> 100 of four bytes; HEX.DEC 0 -> 100 and HEX.ENC 100 -> 200 of "1fA0". -/
theorem witness_HexRoundTrips : ((st (mem 0 [0x00, 0x1F, 0xA0, 0xFF]) 0 16 4).Inv ∧
      (st (mem 0 [0x00, 0x1F, 0xA0, 0xFF]) 0 16 4).holds 0 [0x00, 0x1F, 0xA0, 0xFF] ∧
      overlap 0 4 16 8 = false ∧ overlap 16 8 100 4 = false) ∧
    ((st (mem 0 [0x31, 0x66, 0x41, 0x30]) 0 100 2).Inv ∧
      (st (mem 0 [0x31, 0x66, 0x41, 0x30]) 0 100 2).holds 0 [0x31, 0x66, 0x41, 0x30] ∧
      (∀ c ∈ ([0x31, 0x66, 0x41, 0x30] : List Byte), hexVal c ≠ none) ∧
      overlap 0 4 100 2 = false ∧ overlap 100 2 200 4 = false) :=
  ⟨⟨inv_of (by decide),
    by unfold State.holds; decide, by decide, by decide⟩,
    inv_of (by decide),
    by unfold State.holds; decide, by decide, by decide, by decide⟩

theorem witness_FailedCommandChangesOnlyStatus : ∃ s t, s.inputs = .access (.regWrite 0x04 0x20) :: [] ∧ step s = .next t ∧ t.errcode ≠ 0 :=
  ⟨{ st [] 0x3FE 0x3FD 1 with inputs := [cmdWrite 0x20] }, _, rfl, rfl, by decide⟩

theorem witness_FirstErrorInPriorityIsReported : decode 0x00010010 = .error .reservedBits ∧ LengthFails (st [] 0x3FF 0 300) .stuff ∧
    (¬LengthFails (st [] 0x3FE 0x3FD 2) .hexEnc ∧ RangeFails (st [] 0x3FE 0x3FD 2) .hexEnc) ∧
    (¬LengthFails (st [] 0 1 1) .hexDec ∧ ¬RangeFails (st [] 0 1 1) .hexDec ∧ OverlapFails (st [] 0 1 1) .hexDec) ∧
    (¬LengthFails (st (mem 0 [0x47]) 0 100 1) .hexDec ∧ ¬RangeFails (st (mem 0 [0x47]) 0 100 1) .hexDec ∧
      ¬OverlapFails (st (mem 0 [0x47]) 0 100 1) .hexDec ∧
      ∃ t, exec .hexDec (st (mem 0 [0x47]) 0 100 1) = .next t ∧ t.errcode = 4) := by
  refine ⟨rfl, ?_, ⟨?_, ?_⟩, ⟨?_, ?_, ?_⟩, ?_, ?_, ?_, ⟨_, rfl, by decide⟩⟩ <;>
    simp only [LengthFails, RangeFails, OverlapFails] <;> decide

/-- A CMD write that ends with each of the codes 0 to 5, and with TERM = 1. -/
theorem witness_StatusDescribesTheLastCommand : ([(0x01, st [] 0 0 0), (0x00, st [] 0 0 0), (0x20, st [] 0x401 0 0), (0x11, st [] 0 0 0),
      (0x21, st (mem 0 [0x47]) 0 100 1), (0x21, st [] 0 1 1), (0x11, st (mem 0x3FF [0x00]) 0x3FF 0 1)].map
        fun (p : Word × State) => (after (step { p.2 with inputs := [cmdWrite p.1] })).map State.status) =
    [some 0, some 1, some 2, some 3, some 4, some 5, some 0x100] := by decide

/-- Two states that agree on what every command reads, and differ elsewhere. -/
theorem witness_CommandsReadAndWriteTheirOwnRegisters : (st (mem 0 raw) 0 8 8 2 5).acc = { st (mem 0 raw) 0 8 8 2 5 with status := 3 }.acc ∧
    (st (mem 0 raw) 0 8 8 2 5) ≠ { st (mem 0 raw) 0 8 8 2 5 with status := 3 } ∧
    (st (mem 0 raw) 0 8 8 2 5).nextIndex = { st (mem 0 raw) 0 8 8 2 5 with status := 3 }.nextIndex := by decide

/-- Every command has a next state somewhere. -/
theorem witness_CommandFrames : [Instr.crcClr, .crcB 0x41, .crcBuf, .stuff, .unstuff, .unstuffC, .hexEnc].all
      (fun i => (after (exec i (st (mem 0 raw) 0 8 8))).isSome) = true ∧
    (after (exec .hexDec (st (mem 0 [0x31, 0x66]) 0 8 1))).isSome = true := by decide

end Sys2Proof.Tests
end

section
/-! SUPPORT. The invariant: each update of State keeps it, every command ends in one of four updates, and so every input
and every step keeps it. -/

namespace Sys2Proof.Machine

/-! ### STATUS words -/

theorem legalStatus_succeed (b : Bool) : LegalStatus (statusWord okCode b) := by revert b; decide

theorem legalStatus_raise (e : CmdError) : LegalStatus (statusWord e.code false) := by cases e <;> decide

/-! ### The updates of State -/

namespace State.Inv

variable {s : State}

theorem setInputs (h : s.Inv) (is : List Input) : State.Inv { s with inputs := is } := { h with }

theorem setBuf (h : s.Inv) {m : Memory} (hw : Memory.wf m) (hi : Memory.within s.bufSize m) :
    State.Inv { s with buf := m } :=
  { h with buf_wf := hw, buf_within := hi }

theorem setAcc (h : s.Inv) (a : Byte) : (s.setAcc a).Inv := { h with crc_field := zextByte_lt a }

theorem setNext (h : s.Inv) (n : Half) : (s.setNext n).Inv := { h with next_field := zextHalf_lt n }

theorem succeed (h : s.Inv) (b : Bool) : (s.succeed b).Inv := { h with status_legal := legalStatus_succeed b }

theorem raise (h : s.Inv) (e : CmdError) : (s.raise e).Inv := { h with status_legal := legalStatus_raise e }

theorem reply (h : s.Inv) (r : Reply) : (s.reply r).Inv := { h with }

theorem bufWrite (h : s.Inv) {a : Nat} (ha : a < s.bufSize) (v : Byte) :
    State.Inv { s with buf := memWrite s.buf a v } :=
  h.setBuf (memWrite_wf h.buf_wf a v) (memWrite_within h.buf_within ha v)

theorem setStored (h : s.Inv) {base n : Nat} {m : Memory} (hm : StoredIn s.bufSize base n s.buf m) :
    State.Inv { s with buf := m } := by
  obtain ⟨hw, hi, -⟩ := hm
  exact h.setBuf (hw h.buf_wf) (hi h.buf_within)

/-- The hardware reset input (R150) keeps BUF_SIZE, empties BUF and sets every other register to 0. -/
theorem assertReset (h : s.Inv) : s.assertReset.Inv where
  bufSize_min := h.bufSize_min
  bufSize_max := h.bufSize_max
  buf_wf := List.Pairwise.nil
  buf_within := by simp [Memory.within]
  status_legal := .inl (by simp)
  crc_field := by simp
  src_field := by simp
  dst_field := by simp
  len_field := by simp
  next_field := by simp

/-- R31: a host write stores the field of the word it is given, so the bits outside stay 0. -/
theorem writeReg (h : s.Inv) (r : RegName) (v : Word) : (s.writeReg r v).Inv := by
  cases r with
  | param => exact h
  | cmd => exact { h with }
  | status => exact h
  | crc => exact { h with crc_field := zextByte_lt _ }
  | src => exact { h with src_field := zextHalf_lt _ }
  | dst => exact { h with dst_field := zextHalf_lt _ }
  | len => exact { h with len_field := zextHalf_lt _ }
  | next => exact { h with next_field := zextHalf_lt _ }

end State.Inv

/-! ### The commands -/

/-- The states a command that ends without a model fault can leave: an error raised (R132), the accumulator set, or
stores inside its own destination range (`storesAt`), by a chain walk together with NEXT and TERM. -/
inductive CommandEnd (s : State) (i : Instr) : State → Prop where
  | raised (e : CmdError) : CommandEnd s i (s.raise e)
  | accumulated (a : Byte) : CommandEnd s i ((s.setAcc a).succeed false)
  | stored {m : Memory} : StoredIn s.bufSize (storesAt s i).1 (storesAt s i).2 s.buf m →
      CommandEnd s i ({ s with buf := m }.succeed false)
  | walked {e : WalkEnd} : StoredIn s.bufSize (storesAt s i).1 (storesAt s i).2 s.buf e.buf →
      CommandEnd s i (s.endWalk e)

/-- The inversion lemmas of the eight commands, read as one. -/
theorem exec_next {i : Instr} {s t : State} (h : exec i s = .next t) : CommandEnd s i t := by
  cases i with
  | crcClr =>
    cases h
    exact .accumulated _
  | crcB b =>
    cases h
    exact .accumulated _
  | crcBuf =>
    change execCrcBuf s = _ at h
    obtain ⟨-, he⟩ | ⟨-, ⟨a, he⟩ | ⟨f, he, -⟩⟩ := execCrcBuf_cases s <;> cases he.symm.trans h
    · exact .raised _
    · exact .accumulated a
  | stuff =>
    change execStuff s = _ at h
    obtain ⟨-, he⟩ | ⟨-, -, he⟩ | ⟨-, -, ⟨m, he, hm⟩ | ⟨f, he, -⟩⟩ := execStuff_cases s <;> cases he.symm.trans h
    · exact .raised _
    · exact .raised _
    · exact .stored hm
  | unstuff =>
    change execUnstuff s = _ at h
    obtain ⟨-, he⟩ | ⟨-, -, he⟩ | ⟨-, -, ⟨e, he, hm⟩ | ⟨f, he, -⟩⟩ := execUnstuff_cases s <;> cases he.symm.trans h
    · exact .raised _
    · exact .raised _
    · exact .walked hm
  | unstuffC =>
    change execUnstuffC s = _ at h
    obtain ⟨-, he⟩ | ⟨-, ⟨e, he, hm⟩ | ⟨f, he, -⟩⟩ := execUnstuffC_cases s <;> cases he.symm.trans h
    · exact .raised _
    · exact .walked hm
  | hexEnc =>
    change execHexEnc s = _ at h
    obtain ⟨-, he⟩ | ⟨-, -, ⟨-, he⟩ | ⟨-, ⟨m, he, hm⟩ | ⟨f, he, -⟩⟩⟩ := execHexEnc_cases s <;>
      cases he.symm.trans h
    · exact .raised _
    · exact .raised _
    · exact .stored hm
  | hexDec =>
    change execHexDec s = _ at h
    obtain ⟨-, he⟩ | ⟨-, -, ⟨-, he⟩ | ⟨-, ⟨he, -⟩ | ⟨vs, he, -, hm⟩ | ⟨f, he, -⟩⟩⟩ := execHexDec_cases s <;>
      cases he.symm.trans h
    · exact .raised _
    · exact .raised _
    · exact .raised _
    · exact .stored hm

theorem CommandEnd.inv {s t : State} {i : Instr} (hs : s.Inv) (h : CommandEnd s i t) : t.Inv := by
  cases h with
  | raised e => exact hs.raise e
  | accumulated a => exact (hs.setAcc a).succeed false
  | stored hm => exact (hs.setStored hm).succeed false
  | @walked e hm => exact ((hs.setStored hm).setNext e.next).succeed e.term

/-! ### The inputs -/

theorem runCommand_inv {w : Word} {s t : State} (hs : s.Inv) (h : runCommand w s = .next t) : t.Inv := by
  cases hd : decode w with
  | ok i => exact (exec_next ((runCommand_ok hd s).symm.trans h)).inv hs
  | error e =>
    cases (runCommand_error hd s).symm.trans h
    exact hs.raise .illegalCmd

/-- A write to a register other than CMD is done when it has stored the word. -/
theorem hostWrite_of_ne_cmd {r : RegName} (hr : r ≠ .cmd) (v : Word) (s : State) :
    hostWrite r v s = .next (s.writeReg r v) := by
  cases r with
  | cmd => exact absurd rfl hr
  | _ => rfl

theorem hostWrite_inv {r : RegName} {v : Word} {s t : State} (hs : s.Inv) (h : hostWrite r v s = .next t) :
    t.Inv := by
  by_cases hr : r = .cmd
  · subst hr
    exact runCommand_inv (hs.writeReg .cmd v) h
  · cases (hostWrite_of_ne_cmd hr v s).symm.trans h
    exact hs.writeReg r v

theorem hostAccess_inv {op : HostOp} {s t : State} (hs : s.Inv) (h : hostAccess op s = .next t) : t.Inv := by
  cases op with
  | regRead off =>
    simp only [hostAccess] at h
    split at h
    · cases h
    · cases h
      exact hs.reply _
  | regWrite off v =>
    simp only [hostAccess] at h
    split at h
    · cases h
    · exact hostWrite_inv hs h
  | bufRead a =>
    simp only [hostAccess] at h
    split at h
    · obtain ⟨v, -, rfl⟩ := finish_eq_next.1 h
      exact hs.reply _
    · cases h
  | bufWrite a v =>
    simp only [hostAccess] at h
    split at h
    · cases h
      exact hs.bufWrite ‹_› v
    · cases h

theorem takeInput_inv {i : Input} {s t : State} (hs : s.Inv) (h : takeInput i s = .next t) : t.Inv := by
  cases i with
  | access op => exact hostAccess_inv hs h
  | reset =>
    cases h
    exact hs.assertReset

theorem step_inv {s t : State} (hs : s.Inv) (h : step s = .next t) : t.Inv := by
  cases hi : s.inputs with
  | nil =>
    cases (step_idle hi).symm.trans h
    exact hs
  | cons i rest => exact takeInput_inv (hs.setInputs rest) ((step_cons hi).symm.trans h)

/-- Settles O4: each update of State that a step can make keeps the invariant, by cases on the input and the command. -/
theorem stepKeepsInvariant : Obligations.StepKeepsInvariant := fun _ _ => step_inv

end Sys2Proof.Machine
end

section
/-! SUPPORT. Registers and host accesses: each register's field as a masked word, STATUS and PARAM as numbers, and the
step of each host access that runs no command. -/

namespace Sys2Proof.Machine

/-! ### Fields -/

theorem zextByte_lowByte_eq_and (w : Word) : zextByte (lowByte w) = w &&& 0x000000FF := by
  apply BitVec.eq_of_toNat_eq
  rw [zextByte_lowByte_toNat, BitVec.toNat_and]
  exact (Nat.and_two_pow_sub_one_eq_mod _ 8).symm

theorem zextHalf_lowHalf_eq_and (w : Word) : zextHalf (lowHalf w) = w &&& 0x0000FFFF := by
  apply BitVec.eq_of_toNat_eq
  rw [zextHalf_lowHalf_toNat, BitVec.toNat_and]
  exact (Nat.and_two_pow_sub_one_eq_mod _ 16).symm

theorem statusWord_toNat (c : Byte) (b : Bool) : (statusWord c b).toNat = b.toNat * 2 ^ 8 + c.toNat := by
  revert c b; decide

/-- R25: STATUS has its nine bits ERRCODE and TERM. -/
theorem statusWord_fields_toNat (w : Word) : (statusWord (lowByte w) (w.getLsbD 8)).toNat = w.toNat % 2 ^ 9 := by
  rw [statusWord_toNat, BitVec.getLsbD, Nat.toNat_testBit]
  simp only [lowByte, BitVec.extractLsb'_toNat, Nat.shiftRight_zero]
  omega

theorem statusWord_fields_eq_and (w : Word) : statusWord (lowByte w) (w.getLsbD 8) = w &&& 0x000001FF := by
  apply BitVec.eq_of_toNat_eq
  rw [statusWord_fields_toNat, BitVec.toNat_and]
  exact (Nat.and_two_pow_sub_one_eq_mod _ 9).symm

/-- A STATUS word that R25 and R130 allow is its two fields. -/
theorem statusWord_fields {w : Word} (h : LegalStatus w) : statusWord (lowByte w) (w.getLsbD 8) = w := by
  apply BitVec.eq_of_toNat_eq
  rw [statusWord_fields_toNat]
  obtain h | h := h <;> omega

theorem and_and_eq_zero {m m' : Word} (h : m &&& m' = 0) (w : Word) : w &&& m &&& m' = 0 := by
  rw [BitVec.and_assoc, h]
  exact BitVec.and_zero

/-- R23: BUF_SIZE, SENTINEL and CRC_POLY side by side. -/
theorem paramWord_toNat {s : State} (h : s.bufSize < 2 ^ 16) : s.paramWord.toNat = s.bufSize * 2 ^ 16 + 0xA6 := by
  have hcat : s.paramWord.toNat = ((s.bufSize % 2 ^ 16) <<< 8 ||| 0) <<< 8 ||| 0xA6 := by
    simp only [State.paramWord, BitVec.toNat_append, BitVec.toNat_ofNat]
    rfl
  rw [hcat, Nat.or_zero, ← Nat.shiftLeft_add, ← Nat.shiftLeft_add_eq_or_of_lt (by omega), Nat.shiftLeft_eq,
    Nat.mod_eq_of_lt h]

/-! ### Reads under the invariant -/

namespace State.Inv

variable {s : State}

theorem readReg_param_toNat (h : s.Inv) : (s.readReg .param).toNat = s.bufSize * 2 ^ 16 + 0xA6 :=
  paramWord_toNat (Nat.lt_of_le_of_lt h.bufSize_max (by decide))

theorem readReg_param (h : s.Inv) : s.readReg .param = BitVec.ofNat 32 (s.bufSize * 2 ^ 16 + 0xA6) := by
  rw [← h.readReg_param_toNat, BitVec.ofNat_toNat, BitVec.setWidth_eq]

theorem readReg_status (h : s.Inv) : s.readReg .status = s.status := statusWord_fields h.status_legal

theorem readReg_crc (h : s.Inv) : s.readReg .crc = s.crc := zextByte_lowByte h.crc_field

theorem readReg_src (h : s.Inv) : s.readReg .src = s.src := zextHalf_lowHalf h.src_field

theorem readReg_dst (h : s.Inv) : s.readReg .dst = s.dst := zextHalf_lowHalf h.dst_field

theorem readReg_len (h : s.Inv) : s.readReg .len = s.len := zextHalf_lowHalf h.len_field

theorem readReg_next (h : s.Inv) : s.readReg .next = s.next := zextHalf_lowHalf h.next_field

end State.Inv

/-! ### Host accesses -/

section

variable {s : State} {rest : List Input} {r : RegName}

theorem step_regRead {v : Word} (h : s.inputs = .access (.regRead (offsetOf r)) :: rest) (hv : s.readReg r = v) :
    step s = .next { s with inputs := rest, replies := s.replies ++ [.word v] } := by
  rw [step_cons h, ← hv]
  simp only [takeInput, hostAccess, regAt_offsetOf]
  cases r <;> rfl

theorem step_regWrite {w : Word} (h : s.inputs = .access (.regWrite (offsetOf r) w) :: rest) (hr : r ≠ .cmd) :
    step s = .next (State.writeReg { s with inputs := rest } r w) := by
  rw [step_cons h, ← hostWrite_of_ne_cmd hr]
  simp only [takeInput, hostAccess, regAt_offsetOf]

theorem step_bufRead {a : Nat} {v : Byte} (h : s.inputs = .access (.bufRead a) :: rest) (ha : a < s.bufSize)
    (hv : memRead s.buf a = some v) :
    step s = .next { s with inputs := rest, replies := s.replies ++ [.byte v] } := by
  rw [step_cons h]
  simp only [takeInput, hostAccess, if_pos ha, load_of_some hv, finish_ok]
  rfl

end

/-! ### Reset, reads, writes, and the idle block -/

theorem readReg_reset (r : RegName) : State.reset.readReg r = if r = .param then 0x040000A6 else 0x00000000 := by
  cases r <;> rfl

/-- Settles O1, register by register. -/
theorem resetStateIsAsListed : Obligations.ResetStateIsAsListed :=
  ⟨readReg_reset, rfl, rfl, rfl, memRead_nil⟩

/-- Settles O3, field by field of the invariant. -/
theorem resetMeetsInvariant : Obligations.ResetMeetsInvariant where
  bufSize_min := by decide
  bufSize_max := by decide
  buf_wf := List.Pairwise.nil
  buf_within := by decide
  status_legal := by decide
  crc_field := by decide
  src_field := by decide
  dst_field := by decide
  len_field := by decide
  next_field := by decide

/-- Settles O6: `step_idle`. -/
theorem idleStepChangesNothing : Obligations.IdleStepChangesNothing := fun _ => step_idle

/-- Settles O10: the step of a host read, with what the invariant says each register reads as. -/
theorem hostReadsChangeNothing : Obligations.HostReadsChangeNothing := by
  intro s rest h
  refine ⟨fun r hr => ?_, fun _ _ => step_bufRead⟩
  cases r with
  | param => exact step_regRead hr h.readReg_param
  | cmd => exact step_regRead hr rfl
  | status => exact step_regRead hr h.readReg_status
  | crc => exact step_regRead hr h.readReg_crc
  | src => exact step_regRead hr h.readReg_src
  | dst => exact step_regRead hr h.readReg_dst
  | len => exact step_regRead hr h.readReg_len
  | next => exact step_regRead hr h.readReg_next

/-- Settles O11: reading and writing a register both keep its field, which is the word under a mask. -/
theorem registerFieldsReadAndWrite : Obligations.RegisterFieldsReadAndWrite := by
  refine ⟨fun s => ?_, fun s w rest r h => ?_⟩
  · simp only [State.readReg, State.errcode, State.term, State.acc, statusWord_fields_eq_and,
      zextByte_lowByte_eq_and, zextHalf_lowHalf_eq_and]
    have hhalf := and_and_eq_zero (m := 0x0000FFFF) (m' := 0xFFFF0000) (by decide)
    exact ⟨and_and_eq_zero (by decide) _, and_and_eq_zero (by decide) _, hhalf _, hhalf _, hhalf _, hhalf _⟩
  · simp only [← zextByte_lowByte_eq_and, ← zextHalf_lowHalf_eq_and]
    refine ⟨?_, ?_, ?_, ?_, ?_, ?_, ?_⟩ <;>
    · rintro rfl
      exact step_regWrite h (by decide)

end Sys2Proof.Machine
end

section
/-! SUPPORT. What each command may do to STATUS, CRC and NEXT: which errors it raises (R130), and whether it accumulates
or walks. -/

namespace Sys2Proof.Machine

/-- R130: the commands each error can come from. ILLEGAL_CMD comes from a word that is no command. -/
def CmdError.commands : CmdError → List Instr
  | .illegalCmd => []
  | .range => [.crcBuf, .stuff, .unstuff, .unstuffC, .hexEnc, .hexDec]
  | .length => [.stuff, .unstuff]
  | .illegalHex => [.hexDec]
  | .overlap => [.hexEnc, .hexDec]

/-- How the command `i` may end, where `CommandEnd` says what any command may leave: an error only from its own row of
R130, the accumulator set only by a CRC command, a walk only by UNSTUFF and UNSTUFF.C. -/
inductive CommandResult (s : State) (i : Instr) : State → Prop where
  | raised {e : CmdError} : i ∈ e.commands → CommandResult s i (s.raise e)
  | accumulated {a : Byte} : i ∉ [.stuff, .unstuff, .unstuffC, .hexEnc, .hexDec] →
      CommandResult s i ((s.setAcc a).succeed false)
  | stored {m : Memory} : CommandResult s i ({ s with buf := m }.succeed false)
  | walked {e : WalkEnd} : i = .unstuff ∨ i = .unstuffC → CommandResult s i (s.endWalk e)

theorem exec_result {i : Instr} {s t : State} (h : exec i s = .next t) : CommandResult s i t := by
  cases i with
  | crcClr =>
    cases h
    exact .accumulated (by simp)
  | crcB b =>
    cases h
    exact .accumulated (by simp)
  | crcBuf =>
    change execCrcBuf s = _ at h
    obtain ⟨-, he⟩ | ⟨-, ⟨a, he⟩ | ⟨f, he, -⟩⟩ := execCrcBuf_cases s <;> cases he.symm.trans h
    exacts [.raised (by decide), .accumulated (by decide)]
  | stuff =>
    change execStuff s = _ at h
    obtain ⟨-, he⟩ | ⟨-, -, he⟩ | ⟨-, -, ⟨m, he, -⟩ | ⟨f, he, -⟩⟩ := execStuff_cases s <;> cases he.symm.trans h
    exacts [.raised (by decide), .raised (by decide), .stored]
  | unstuff =>
    change execUnstuff s = _ at h
    obtain ⟨-, he⟩ | ⟨-, -, he⟩ | ⟨-, -, ⟨e, he, -⟩ | ⟨f, he, -⟩⟩ := execUnstuff_cases s <;> cases he.symm.trans h
    exacts [.raised (by decide), .raised (by decide), .walked (.inl rfl)]
  | unstuffC =>
    change execUnstuffC s = _ at h
    obtain ⟨-, he⟩ | ⟨-, ⟨e, he, -⟩ | ⟨f, he, -⟩⟩ := execUnstuffC_cases s <;> cases he.symm.trans h
    exacts [.raised (by decide), .walked (.inr rfl)]
  | hexEnc =>
    change execHexEnc s = _ at h
    obtain ⟨-, he⟩ | ⟨-, -, ⟨-, he⟩ | ⟨-, ⟨m, he, -⟩ | ⟨f, he, -⟩⟩⟩ := execHexEnc_cases s <;>
      cases he.symm.trans h
    exacts [.raised (by decide), .raised (by decide), .stored]
  | hexDec =>
    change execHexDec s = _ at h
    obtain ⟨-, he⟩ | ⟨-, -, ⟨-, he⟩ | ⟨-, ⟨he, -⟩ | ⟨vs, he, -, -⟩ | ⟨f, he, -⟩⟩⟩ := execHexDec_cases s <;>
      cases he.symm.trans h
    exacts [.raised (by decide), .raised (by decide), .raised (by decide), .stored]

/-! ### STATUS -/

theorem CmdError.code_ne_zero (e : CmdError) : e.code ≠ 0 := by cases e <;> decide

theorem CmdError.code_inj {e e' : CmdError} (h : e.code = e'.code) : e = e' := by
  revert h; cases e <;> cases e' <;> decide

namespace CommandResult

variable {s t : State} {i : Instr}

theorem status_legal (h : CommandResult s i t) : LegalStatus t.status := by
  cases h with
  | raised => exact legalStatus_raise _
  | accumulated => exact legalStatus_succeed _
  | stored => exact legalStatus_succeed _
  | walked => exact legalStatus_succeed _

theorem walk_of_term (h : CommandResult s i t) (ht : t.term = true) : i = .unstuff ∨ i = .unstuffC := by
  cases h with
  | raised => simp at ht
  | accumulated => simp at ht
  | stored => simp at ht
  | walked hi => exact hi

theorem mem_commands_of_errcode (h : CommandResult s i t) {e : CmdError} (ht : t.errcode = e.code) :
    i ∈ e.commands := by
  cases h with
  | raised hi => exact CmdError.code_inj ((raise_errcode _ _).symm.trans ht) ▸ hi
  | accumulated => exact absurd ((succeed_errcode _ _).symm.trans ht).symm e.code_ne_zero
  | stored => exact absurd ((succeed_errcode _ _).symm.trans ht).symm e.code_ne_zero
  | walked => exact absurd ((succeed_errcode _ _).symm.trans ht).symm e.code_ne_zero

/-! ### CRC and NEXT -/

theorem crc_eq (h : CommandResult s i t) (hi : i ∈ [.stuff, .unstuff, .unstuffC, .hexEnc, .hexDec]) :
    t.crc = s.crc := by
  cases h with
  | raised => rfl
  | accumulated hn => exact absurd hi hn
  | stored => rfl
  | walked => rfl

theorem next_eq (h : CommandResult s i t) (hu : i ≠ .unstuff) (hc : i ≠ .unstuffC) : t.next = s.next := by
  cases h with
  | raised => rfl
  | accumulated => rfl
  | stored => rfl
  | walked hi => exact absurd hi (not_or.2 ⟨hu, hc⟩)

end CommandResult

/-! ### The registers no command writes, and BUF -/

namespace CommandEnd

variable {s t : State} {i : Instr}

theorem frame (h : CommandEnd s i t) : t.cmd = s.cmd ∧ t.src = s.src ∧ t.dst = s.dst ∧ t.len = s.len ∧
    t.bufSize = s.bufSize ∧ t.inputs = s.inputs ∧ t.replies = s.replies := by
  cases h <;> exact ⟨rfl, rfl, rfl, rfl, rfl, rfl, rfl⟩

theorem memRead_outside (h : CommandEnd s i t) {a : Nat}
    (ha : a < (storesAt s i).1 ∨ (storesAt s i).1 + (storesAt s i).2 ≤ a) : memRead t.buf a = memRead s.buf a := by
  cases h with
  | raised => rfl
  | accumulated => rfl
  | stored hm =>
    obtain ⟨-, -, hout⟩ := hm
    exact hout a ha
  | walked hm =>
    obtain ⟨-, -, hout⟩ := hm
    exact hout a ha

end CommandEnd

/-- Settles O50: the memory and the registers no command writes from `CommandEnd`, CRC and NEXT from
`CommandResult`. -/
theorem commandFrames : Obligations.CommandFrames := by
  intro i s t h
  obtain ⟨hcmd, hsrc, hdst, hlen, hsize, hin, hrep⟩ := (exec_next h).frame
  exact ⟨hcmd, hsrc, hdst, hlen, hsize, hin, hrep, (exec_result h).crc_eq, (exec_result h).next_eq,
    fun _ => (exec_next h).memRead_outside⟩

/-- Every end of a command overwrites STATUS (`succeed`, `raise`, `endWalk`, `endHexDec`), and nothing before it reads
STATUS: by unfolding, command by command. -/
theorem exec_setStatus (i : Instr) (s : State) (w : Word) : exec i { s with status := w } = exec i s := by
  cases i <;> rfl

/-- Settles O48: `exec_setStatus`, and STATUS as reset leaves it. -/
theorem noCommandReadsStatus : Obligations.NoCommandReadsStatus := ⟨exec_setStatus, rfl, rfl⟩

/-! ### CMD writes -/

theorem raise_illegalCmd_eq (s : State) : s.raise .illegalCmd = { s with status := 0x00000001 } := rfl

/-- Settles O8: the step of a CMD write runs the word, by whether it decodes, and a read of CMD only replies. -/
theorem stepRunsDecodedCommand : Obligations.StepRunsDecodedCommand := by
  refine fun s w rest => ⟨fun h => ⟨fun i hi => ?_, fun e he => ?_⟩, fun h => step_regRead (r := .cmd) h rfl⟩
  · rw [step_cmd h, runCommand_ok hi]
  · rw [step_cmd h, runCommand_error he, raise_illegalCmd_eq]

/-- Settles O47: a legal word ends as its command may, an illegal one with ILLEGAL_CMD, which no command raises. -/
theorem statusDescribesTheLastCommand : Obligations.StatusDescribesTheLastCommand := by
  intro s t w rest h hs
  rw [step_cmd h] at hs
  cases hd : decode w with
  | error e =>
    cases (runCommand_error hd _).symm.trans hs
    refine ⟨legalStatus_raise _, ?_⟩
    simp [CmdError.code]
  | ok i =>
    have hr := exec_result ((runCommand_ok hd _).symm.trans hs)
    refine ⟨hr.status_legal, fun ht => ?_, ⟨fun hc => ?_, nofun⟩, fun hc => ⟨i, rfl, ?_⟩, fun hc => ?_, fun hc => ?_,
      fun hc => ?_⟩
    · simpa using hr.walk_of_term ht
    · exact absurd (hr.mem_commands_of_errcode (e := .illegalCmd) hc) List.not_mem_nil
    · exact hr.mem_commands_of_errcode (e := .range) hc
    · simpa [CmdError.commands] using hr.mem_commands_of_errcode (e := .length) hc
    · simpa [CmdError.commands] using hr.mem_commands_of_errcode (e := .illegalHex) hc
    · simpa [CmdError.commands] using hr.mem_commands_of_errcode (e := .overlap) hc

end Sys2Proof.Machine
end

section
/-! SUPPORT. What one input can do to the block, from any state. -/

namespace Sys2Proof.Machine

/-- The states an input can lead to: a reply to a host read, a register or a byte stored, the command of a CMD write
ended or its word found illegal, the reset state. -/
inductive InputEnd (s : State) : State → Prop where
  | replied (r : Reply) : InputEnd s (s.reply r)
  | wrote (r : RegName) (v : Word) : InputEnd s (s.writeReg r v)
  | stored (a : Nat) (v : Byte) : InputEnd s { s with buf := memWrite s.buf a v }
  | executed {w : Word} {i : Instr} {t : State} : CommandEnd (s.writeReg .cmd w) i t → InputEnd s t
  | illegal (w : Word) : InputEnd s ((s.writeReg .cmd w).raise .illegalCmd)
  | reset : InputEnd s s.assertReset

theorem hostWrite_next {r : RegName} {v : Word} {s t : State} (h : hostWrite r v s = .next t) : InputEnd s t := by
  by_cases hr : r = .cmd
  · subst hr
    change runCommand v (s.writeReg .cmd v) = _ at h
    cases hd : decode v with
    | ok i => exact .executed (exec_next ((runCommand_ok hd _).symm.trans h))
    | error e =>
      cases (runCommand_error hd _).symm.trans h
      exact .illegal v
  · cases (hostWrite_of_ne_cmd hr v s).symm.trans h
    exact .wrote r v

theorem hostAccess_next {op : HostOp} {s t : State} (h : hostAccess op s = .next t) : InputEnd s t := by
  cases op with
  | regRead off =>
    simp only [hostAccess] at h
    split at h <;> cases h
    exact .replied _
  | regWrite off v =>
    simp only [hostAccess] at h
    split at h
    · cases h
    · exact hostWrite_next h
  | bufRead a =>
    simp only [hostAccess] at h
    split at h
    · obtain ⟨v, -, rfl⟩ := finish_eq_next.1 h
      exact .replied _
    · cases h
  | bufWrite a v =>
    simp only [hostAccess] at h
    split at h <;> cases h
    exact .stored a v

theorem takeInput_next {i : Input} {s t : State} (h : takeInput i s = .next t) : InputEnd s t := by
  cases i with
  | access op => exact hostAccess_next h
  | reset =>
    cases h
    exact .reset

theorem writeReg_bufSize (s : State) (r : RegName) (v : Word) : (s.writeReg r v).bufSize = s.bufSize := by
  cases r <;> rfl

theorem InputEnd.bufSize_eq {s t : State} (h : InputEnd s t) : t.bufSize = s.bufSize := by
  cases h with
  | replied => rfl
  | wrote r v => exact writeReg_bufSize s r v
  | stored => rfl
  | executed he =>
    obtain ⟨-, -, -, -, hsize, -⟩ := he.frame
    exact hsize
  | illegal => rfl
  | reset => rfl

theorem step_bufSize {s t : State} (h : step s = .next t) : t.bufSize = s.bufSize := by
  cases hi : s.inputs with
  | nil =>
    cases (step_idle hi).symm.trans h
    rfl
  | cons i rest => exact (takeInput_next ((step_cons hi).symm.trans h)).bufSize_eq

theorem readReg_param_congr {s t : State} (h : t.bufSize = s.bufSize) : t.readReg .param = s.readReg .param := by
  simp only [State.readReg, State.paramWord, h]

/-- Settles O12: PARAM is made of constants and of BUF_SIZE, which no input changes. -/
theorem paramIsConstant : Obligations.ParamIsConstant := by
  refine ⟨fun s hs => ?_, fun s t h => readReg_param_congr (step_bufSize h),
    fun s w rest h => step_regWrite (r := .param) h (by decide)⟩
  have := hs.readReg_param_toNat
  omega

end Sys2Proof.Machine
end

section
/-! SUPPORT. What ends a host access in a fault, from any state, and what a read right after a write of the same register
or byte returns. -/

namespace Sys2Proof.Machine

/-! ### The faults of commands -/

theorem UnwrittenIn.inside {base n size : Nat} {m : Memory} {f : Fault} (h : UnwrittenIn base n m f)
    (hin : base + n ≤ size) : ∃ a, f = .unwrittenRead a ∧ a < size ∧ memRead m a = none := by
  obtain ⟨j, hj, hf, hn⟩ := h
  exact ⟨base + j, hf, by omega, hn⟩

/-- The inversion lemmas of the eight commands, read as one: R35's model fault is the only one a command ends in. -/
theorem exec_fault {i : Instr} {s : State} {f : Fault} (h : exec i s = .fault f) :
    ∃ a, f = .unwrittenRead a ∧ a < s.bufSize ∧ memRead s.buf a = none := by
  cases i with
  | crcClr => cases h
  | crcB b => cases h
  | crcBuf =>
    change execCrcBuf s = _ at h
    obtain ⟨-, he⟩ | ⟨hin, ⟨a, he⟩ | ⟨g, he, hg⟩⟩ := execCrcBuf_cases s <;> cases he.symm.trans h
    exact hg.inside hin
  | stuff =>
    change execStuff s = _ at h
    obtain ⟨-, he⟩ | ⟨-, -, he⟩ | ⟨-, hin, ⟨m, he, -⟩ | ⟨g, he, hg⟩⟩ := execStuff_cases s <;> cases he.symm.trans h
    exact hg.inside hin
  | unstuff =>
    change execUnstuff s = _ at h
    obtain ⟨-, he⟩ | ⟨-, -, he⟩ | ⟨-, hin, ⟨e, he, -⟩ | ⟨g, he, hg⟩⟩ := execUnstuff_cases s <;>
      cases he.symm.trans h
    exact hg.inside hin
  | unstuffC =>
    change execUnstuffC s = _ at h
    obtain ⟨-, he⟩ | ⟨hin, ⟨e, he, -⟩ | ⟨g, he, hg⟩⟩ := execUnstuffC_cases s <;> cases he.symm.trans h
    exact hg.inside hin
  | hexEnc =>
    change execHexEnc s = _ at h
    obtain ⟨-, he⟩ | ⟨hin, -, ⟨-, he⟩ | ⟨-, ⟨m, he, -⟩ | ⟨g, he, hg⟩⟩⟩ := execHexEnc_cases s <;>
      cases he.symm.trans h
    exact hg.inside hin
  | hexDec =>
    change execHexDec s = _ at h
    obtain ⟨-, he⟩ | ⟨hin, -, ⟨-, he⟩ | ⟨-, ⟨he, -⟩ | ⟨vs, he, -, -⟩ | ⟨g, he, hg⟩⟩⟩ := execHexDec_cases s <;>
      cases he.symm.trans h
    exact hg.inside hin

/-- An illegal word is raised in STATUS (R65), so a fault comes from the command of a legal one. -/
theorem runCommand_fault {w : Word} {s : State} {f : Fault} (h : runCommand w s = .fault f) :
    ∃ a, f = .unwrittenRead a ∧ a < s.bufSize ∧ memRead s.buf a = none := by
  cases hd : decode w with
  | ok i => exact exec_fault ((runCommand_ok hd s).symm.trans h)
  | error e => cases (runCommand_error hd s).symm.trans h

theorem hostWrite_fault {r : RegName} {v : Word} {s : State} {f : Fault} (h : hostWrite r v s = .fault f) :
    ∃ a, f = .unwrittenRead a ∧ a < s.bufSize ∧ memRead s.buf a = none := by
  by_cases hr : r = .cmd
  · subst hr
    exact runCommand_fault (s := s.writeReg .cmd v) h
  · cases (hostWrite_of_ne_cmd hr v s).symm.trans h

/-! ### Accesses to registers -/

/-- R41: an offset that is a multiple of 4 below 0x20 is the offset of a register. -/
theorem exists_offsetOf {off : Nat} (h4 : off % 4 = 0) (hlt : off < 0x20) : ∃ r, off = offsetOf r := by
  cases hr : regAt off with
  | none =>
    have := regAt_eq_none_iff.1 hr
    omega
  | some r => exact ⟨r, offsetOf_of_regAt hr⟩

section

variable {s : State} {rest : List Input}

theorem step_regRead_unmapped {off : Nat} (h : s.inputs = .access (.regRead off) :: rest) (hoff : regAt off = none) :
    step s = .fault (.registerOffset off) := by
  rw [step_cons h]
  simp only [takeInput, hostAccess, hoff]

theorem step_regWrite_unmapped {off : Nat} {v : Word} (h : s.inputs = .access (.regWrite off v) :: rest)
    (hoff : regAt off = none) : step s = .fault (.registerOffset off) := by
  rw [step_cons h]
  simp only [takeInput, hostAccess, hoff]

theorem step_regWrite_eq_hostWrite {r : RegName} {v : Word}
    (h : s.inputs = .access (.regWrite (offsetOf r) v) :: rest) :
    step s = hostWrite r v { s with inputs := rest } := by
  rw [step_cons h]
  simp only [takeInput, hostAccess, regAt_offsetOf]

/-! ### Accesses to BUF -/

theorem step_bufRead_outside {a : Nat} (h : s.inputs = .access (.bufRead a) :: rest) (ha : s.bufSize ≤ a) :
    step s = .fault (.bufferAddress a) := by
  rw [step_cons h]
  exact if_neg (Nat.not_lt.2 ha)

theorem step_bufRead_unwritten {a : Nat} (h : s.inputs = .access (.bufRead a) :: rest) (ha : a < s.bufSize)
    (hn : memRead s.buf a = none) : step s = .fault (.unwrittenRead a) := by
  rw [step_cons h]
  simp only [takeInput, hostAccess, if_pos ha, load_of_none hn, finish_error]

theorem step_bufWrite_outside {a : Nat} {v : Byte} (h : s.inputs = .access (.bufWrite a v) :: rest)
    (ha : s.bufSize ≤ a) : step s = .fault (.bufferAddress a) := by
  rw [step_cons h]
  exact if_neg (Nat.not_lt.2 ha)

theorem step_bufWrite {a : Nat} {v : Byte} (h : s.inputs = .access (.bufWrite a v) :: rest) (ha : a < s.bufSize) :
    step s = .next { s with inputs := rest, buf := memWrite s.buf a v } := by
  rw [step_cons h]
  exact if_pos ha

end

/-- Settles O13: an unmapped offset is no register's; at a mapped one a read replies, and a write faults only as a
command may. -/
theorem unmappedOffsetIsHostAccessError : Obligations.UnmappedOffsetIsHostAccessError := by
  refine fun s off v rest h => ⟨fun hoff => ?_, fun h4 hlt f hf => ?_⟩
  · have hnone := regAt_eq_none_iff.2 hoff
    obtain h | h := h
    · exact step_regRead_unmapped h hnone
    · exact step_regWrite_unmapped h hnone
  · obtain ⟨r, rfl⟩ := exists_offsetOf h4 hlt
    obtain h | h := h
    · cases (step_regRead h rfl).symm.trans hf
    · obtain ⟨a, ha, -⟩ := hostWrite_fault ((step_regWrite_eq_hostWrite h).symm.trans hf)
      exact ⟨a, ha⟩

/-- Settles O14: the step of each buffer access, and `memWrite` as a store of one byte. -/
theorem bufferAccesses : Obligations.BufferAccesses :=
  fun s a v _ => ⟨fun h => ⟨step_bufRead_outside h, step_bufRead_unwritten h⟩,
    fun h => ⟨step_bufWrite_outside h, fun ha => ⟨memWrite s.buf a v, step_bufWrite h ha, memRead_memWrite_same _ _ _,
      fun _ => memRead_memWrite_other _ _ _⟩⟩⟩

/-! ### A write and the read after it -/

theorem run_succ {s t : State} (h : step s = .next t) (k : Nat) :
    Host.Core.run core (k + 1) s = Host.Core.run core k t := by
  have hcore : core.step s = .next t := h
  simp only [Host.Core.run, hcore]

theorem run_two {s t u : State} (hst : step s = .next t) (htu : step t = .next u) :
    Host.Core.run core 2 s = .next u := by
  rw [run_succ hst, run_succ htu]
  rfl

theorem writeReg_buf (s : State) (r : RegName) (v : Word) : (s.writeReg r v).buf = s.buf := by
  cases r <;> rfl

theorem writeReg_inputs (s : State) (r : RegName) (v : Word) : (s.writeReg r v).inputs = s.inputs := by
  cases r <;> rfl

theorem writeReg_replies (s : State) (r : RegName) (v : Word) : (s.writeReg r v).replies = s.replies := by
  cases r <;> rfl

/-- A register reads as its own fields, not as what the host has pending. -/
theorem readReg_writeReg_setInputs (s : State) (is : List Input) (r : RegName) (w : Word) :
    (State.writeReg { s with inputs := is } r w).readReg r = (s.writeReg r w).readReg r := by
  cases r <;> rfl

/-- R31: the field that a write stores is the field that a read returns. -/
theorem zextByte_reread (w : Word) : zextByte (lowByte (zextByte (lowByte w))) = w &&& 0x000000FF := by
  rw [lowByte_zextByte, zextByte_lowByte_eq_and]

theorem zextHalf_reread (w : Word) : zextHalf (lowHalf (zextHalf (lowHalf w))) = w &&& 0x0000FFFF := by
  rw [lowHalf_zextHalf, zextHalf_lowHalf_eq_and]

theorem run_regWrite_regRead {s : State} {rest : List Input} {r : RegName} {w v : Word} (hr : r ≠ .cmd)
    (h : s.inputs = .access (.regWrite (offsetOf r) w) :: .access (.regRead (offsetOf r)) :: rest)
    (hv : (s.writeReg r w).readReg r = v) :
    ∃ t, Host.Core.run core 2 s = .next t ∧ t.inputs = rest ∧ t.buf = s.buf ∧ t.replies = s.replies ++ [.word v] := by
  have hread := step_regRead (rest := rest) (writeReg_inputs _ r w) ((readReg_writeReg_setInputs s _ r w).trans hv)
  exact ⟨_, run_two (step_regWrite h hr) hread, rfl, writeReg_buf _ r w,
    congrArg (· ++ [.word v]) (writeReg_replies _ r w)⟩

theorem run_bufWrite_bufRead {s : State} {rest : List Input} {a : Nat} {v : Byte} (ha : a < s.bufSize)
    (h : s.inputs = .access (.bufWrite a v) :: .access (.bufRead a) :: rest) :
    ∃ t, Host.Core.run core 2 s = .next t ∧ t.inputs = rest ∧ t.replies = s.replies ++ [.byte v] :=
  ⟨_, run_two (step_bufWrite h ha) (step_bufRead rfl ha (memRead_memWrite_same _ _ _)), rfl, rfl⟩

/-- Settles O15: a write and a read are two steps, and each register reads back as the field written or, if it is
read-only, as before. -/
theorem nextReadSeesTheWrite : Obligations.NextReadSeesTheWrite := by
  refine fun s rest => ⟨fun r w hr h => ?_, fun a v => run_bufWrite_bufRead⟩
  cases r with
  | param => exact run_regWrite_regRead hr h rfl
  | cmd => exact absurd rfl hr
  | status => exact run_regWrite_regRead hr h rfl
  | crc => exact run_regWrite_regRead hr h (zextByte_reread w)
  | src => exact run_regWrite_regRead hr h (zextHalf_reread w)
  | dst => exact run_regWrite_regRead hr h (zextHalf_reread w)
  | len => exact run_regWrite_regRead hr h (zextHalf_reread w)
  | next => exact run_regWrite_regRead hr h (zextHalf_reread w)

end Sys2Proof.Machine
end

section
/-! SUPPORT. Decoding and encoding: a word decodes to a command exactly when it is that command's word, so the decoder,
the fields of R60 and the opcode map of R64 can each be read from the encoder. -/

namespace Sys2Proof

variable {w : Word} {i : Instr}

/-! ### The decoder and the encoder -/

/-- A command's word is told by its three fields (R60). -/
theorem encode_eq_iff_fields : encode i = w ↔ rsvdField w = 0 ∧ imm8Field w = i.imm8 ∧ opcField w = i.opc := by
  constructor
  · rintro rfl
    exact ⟨rsvdField_encode i, imm8Field_encode i, opcField_encode i⟩
  · rintro ⟨hrsvd, himm, hopc⟩
    rw [← word_of_fields w, hrsvd, himm, hopc]
    rfl

theorem fields_of_plainCommand {opc : Byte} (h : plainCommand opc = some i) : 0 = i.imm8 ∧ opc = i.opc := by
  unfold plainCommand at h
  split_ifs at h <;> cases h <;> exact ⟨rfl, ‹_›⟩

theorem decode_encode (i : Instr) : decode (encode i) = .ok i := by
  simp only [decode, rsvdField_encode, imm8Field_encode, opcField_encode]
  cases i <;> rfl

theorem encode_of_decode (h : decode w = .ok i) : encode i = w := by
  rw [encode_eq_iff_fields]
  unfold decode at h
  split at h
  · cases h
  · rename_i hrsvd
    split at h
    · rename_i hopc
      cases h
      exact ⟨not_not.1 hrsvd, rfl, hopc⟩
    · split at h
      · cases h
      · rename_i hplain
        split at h <;> cases h
        rename_i himm
        obtain ⟨himm8, hopc⟩ := fields_of_plainCommand hplain
        exact ⟨not_not.1 hrsvd, (not_not.1 himm).trans himm8, hopc⟩

/-- Settles O16: `decode_encode` and `encode_of_decode`. -/
theorem decodeEncodeAgree : Obligations.DecodeEncodeAgree := ⟨decode_encode, fun _ _ => encode_of_decode⟩

theorem decode_eq_ok_iff_fields :
    decode w = .ok i ↔ rsvdField w = 0 ∧ imm8Field w = i.imm8 ∧ opcField w = i.opc := by
  rw [← encode_eq_iff_fields]
  refine ⟨encode_of_decode, ?_⟩
  rintro rfl
  exact decode_encode i

/-- R61: decoding is total, so a word that is no command's word is illegal. -/
theorem exists_error_of_forall_ne_ok (h : ∀ i, decode w ≠ .ok i) : ∃ e, decode w = .error e := by
  cases hd : decode w with
  | ok i => exact absurd hd (h i)
  | error e => exact ⟨e, rfl⟩

/-! ### The fields as numbers -/

theorem opcField_toNat (w : Word) : (opcField w).toNat = w.toNat % 2 ^ 8 := by
  simp [opcField]

theorem imm8Field_toNat (w : Word) : (imm8Field w).toNat = w.toNat / 2 ^ 8 % 2 ^ 8 := by
  simp [imm8Field, Nat.shiftRight_eq_div_pow]

theorem rsvdField_toNat (w : Word) : (rsvdField w).toNat = w.toNat / 2 ^ 16 := by
  have := w.isLt
  simp [rsvdField, Nat.shiftRight_eq_div_pow]
  omega

theorem decode_eq_ok_iff_toNat : decode w = .ok i ↔ w.toNat / 2 ^ 16 = 0 ∧
    w.toNat / 2 ^ 8 % 2 ^ 8 = i.imm8.toNat ∧ w.toNat % 2 ^ 8 = i.opc.toNat := by
  simp only [decode_eq_ok_iff_fields, ← BitVec.toNat_inj, rsvdField_toNat, imm8Field_toNat, opcField_toNat,
    BitVec.ofNat_eq_ofNat, BitVec.toNat_ofNat, Nat.zero_mod]

/-- R64: the opcodes of the map. -/
theorem opc_toNat_mem (i : Instr) : i.opc.toNat ∈ [0x01, 0x02, 0x03, 0x10, 0x11, 0x12, 0x20, 0x21] := by
  cases i <;> simp [Instr.opc]

/-- R62: only CRC.B has an immediate. -/
theorem imm8_eq_zero_of_opc_ne (h : i.opc.toNat ≠ 0x02) : i.imm8.toNat = 0 := by
  cases i with
  | crcB b => exact absurd rfl h
  | _ => rfl

/-! ### The opcode map -/

theorem opcodeMapRow (i : Instr) : Laws.OpcodeMapRow.Statement i := by
  cases i with
  | crcClr => exact Laws.OpcodeMapRow.crcClr
  | crcB b => exact Laws.OpcodeMapRow.crcB b
  | crcBuf => exact Laws.OpcodeMapRow.crcBuf
  | stuff => exact Laws.OpcodeMapRow.stuff
  | unstuff => exact Laws.OpcodeMapRow.unstuff
  | unstuffC => exact Laws.OpcodeMapRow.unstuffC
  | hexEnc => exact Laws.OpcodeMapRow.hexEnc
  | hexDec => exact Laws.OpcodeMapRow.hexDec

theorem exists_row (i : Instr) : ∃ r ∈ opcodeMap, r.mnemonic = i.mnemonic := by
  cases i <;> simp [opcodeMap, Instr.mnemonic]

theorem row_eq_of_mnemonic_eq :
    ∀ r ∈ opcodeMap, ∀ r' ∈ opcodeMap, r.mnemonic = r'.mnemonic → r = r' := by decide

/-- A row whose mask has every bit is selected by its pattern alone. -/
theorem eq_pattern_of_selects {name : String} {p : Word} (h : OpcodeRow.selects ⟨name, p, 0xFFFFFFFF⟩ w = true) :
    p = w := by
  have hand : w &&& 0xFFFFFFFF = p := by simpa only [OpcodeRow.selects, beq_iff_eq] using h
  rw [← hand, show (0xFFFFFFFF : Word) = BitVec.allOnes 32 by rfl, BitVec.and_allOnes]

/-- CRC.B's mask leaves IMM8 out: it fixes RSVD and OPC. -/
theorem encode_crcB_of_selects {name : String} (h : OpcodeRow.selects ⟨name, 0x00000002, 0xFFFF00FF⟩ w = true) :
    encode (.crcB (imm8Field w)) = w := by
  have hand : w &&& 0xFFFF00FF = 0x00000002 := by simpa only [OpcodeRow.selects, beq_iff_eq] using h
  have hrsvd : rsvdField w &&& BitVec.allOnes 16 = 0 := by
    rw [show BitVec.allOnes 16 = rsvdField 0xFFFF00FF by rfl, rsvdField, rsvdField, ← BitVec.extractLsb'_and, hand]
    rfl
  have hopc : opcField w &&& BitVec.allOnes 8 = 0x02 := by
    rw [show BitVec.allOnes 8 = opcField 0xFFFF00FF by rfl, opcField, opcField, ← BitVec.extractLsb'_and, hand]
    rfl
  rw [BitVec.and_allOnes] at hrsvd hopc
  exact encode_eq_iff_fields.2 ⟨hrsvd, rfl, hopc⟩

theorem exists_encode_of_selects {r : OpcodeRow} (hr : r ∈ opcodeMap) (h : r.selects w = true) :
    ∃ i, encode i = w := by
  simp only [opcodeMap, List.mem_cons, List.not_mem_nil, or_false] at hr
  obtain rfl | rfl | rfl | rfl | rfl | rfl | rfl | rfl := hr
  · exact ⟨.crcClr, eq_pattern_of_selects h⟩
  · exact ⟨_, encode_crcB_of_selects h⟩
  · exact ⟨.crcBuf, eq_pattern_of_selects h⟩
  · exact ⟨.stuff, eq_pattern_of_selects h⟩
  · exact ⟨.unstuff, eq_pattern_of_selects h⟩
  · exact ⟨.unstuffC, eq_pattern_of_selects h⟩
  · exact ⟨.hexEnc, eq_pattern_of_selects h⟩
  · exact ⟨.hexDec, eq_pattern_of_selects h⟩

theorem exists_error_of_no_row (h : ∀ r ∈ opcodeMap, r.selects w = false) : ∃ e, decode w = .error e := by
  refine exists_error_of_forall_ne_ok fun i hi => ?_
  obtain ⟨r, hr, hname⟩ := exists_row i
  have hsel := (opcodeMapRow i r hr).2 hname
  rw [encode_of_decode hi, h r hr] at hsel
  cases hsel

/-- Settles O17: a word that selects a row is a command's word, and that word selects the row of its mnemonic only. -/
theorem decodeFollowsOpcodeMap : Obligations.DecodeFollowsOpcodeMap := by
  refine fun w => ⟨fun r hr h => ?_, fun r hr r' hr' h h' => ?_, exists_error_of_no_row⟩
  · obtain ⟨i, rfl⟩ := exists_encode_of_selects hr h
    refine ⟨i, decode_encode i, ((opcodeMapRow i r hr).1 h).symm, BitVec.eq_of_toNat_eq ?_⟩
    rw [← imm8Field_encode, imm8Field_toNat, BitVec.toNat_ofNat]
  · obtain ⟨i, rfl⟩ := exists_encode_of_selects hr h
    exact row_eq_of_mnemonic_eq r hr r' hr' (((opcodeMapRow i r hr).1 h).trans ((opcodeMapRow i r' hr').1 h').symm)

/-- Settles O19: each word, read field by field. -/
theorem wordsWrittenOutDecode : Obligations.WordsWrittenOutDecode :=
  ⟨rfl, rfl, rfl, rfl, rfl, rfl, rfl, rfl, rfl, rfl, rfl⟩

end Sys2Proof

namespace Sys2Proof.Machine

/-! ### The step of a CMD write -/

section

variable {s : State} {w : Word} {rest : List Input} {i : Instr}

theorem step_cmd_ok (h : s.inputs = .access (.regWrite 0x04 w) :: rest) (hd : decode w = .ok i) :
    step s = exec i { s with cmd := w, inputs := rest } :=
  ((stepRunsDecodedCommand s w rest).1 h).1 i hd

theorem step_cmd_illegal (h : s.inputs = .access (.regWrite 0x04 w) :: rest) (hd : ∃ e, decode w = .error e) :
    step s = .next { s with cmd := w, inputs := rest, status := 0x00000001 } := by
  obtain ⟨e, he⟩ := hd
  exact ((stepRunsDecodedCommand s w rest).1 h).2 e he

theorem step_commandOp (h : s.inputs = .access (commandOp i) :: rest) :
    step s = exec i { s with cmd := encode i, inputs := rest } :=
  step_cmd_ok h (decode_encode i)

theorem withFetchWord_toNat_inputs (s : State) (w : Word) :
    (s.withFetchWord 32 w.toNat).inputs = .access (.regWrite 0x04 w) :: s.inputs := by
  rw [State.withFetchWord_inputs, Nat.mod_eq_of_lt w.isLt, BitVec.ofNat_toNat, BitVec.setWidth_eq]

end

/-- Settles O18: a word that selects no row is illegal, by the opcode map, and so is the zero word. -/
theorem illegalWordOnlySetsStatus : Obligations.IllegalWordOnlySetsStatus :=
  ⟨by decide, fun _ _ _ h hrow => step_cmd_illegal h (exists_error_of_no_row hrow)⟩

/-- Settles O20: a command's own word decodes to the command. -/
theorem commandLineRunsItsCommand : Obligations.CommandLineRunsItsCommand :=
  fun i s _ => ⟨step_commandOp, step_cmd_ok (withFetchWord_toNat_inputs s (encode i)) (decode_encode i)⟩

/-- Settles O9: a word whose fields are no command's is illegal, and one whose fields are a command's runs it. -/
theorem cmdWriteSelectsCommand : Obligations.CmdWriteSelectsCommand := by
  intro s w rest h
  have illegal (hno : ∀ i, decode w ≠ .ok i) := step_cmd_illegal h (exists_error_of_forall_ne_ok hno)
  refine ⟨fun hrsvd => illegal fun i hi => ?_, fun hopc => illegal fun i hi => ?_,
    fun hopc himm => illegal fun i hi => ?_, fun hrsvd hopc => ?_, fun hrsvd himm => ?_⟩
  · obtain ⟨hzero, -, -⟩ := decode_eq_ok_iff_toNat.1 hi
    exact hrsvd hzero
  · obtain ⟨-, -, hi⟩ := decode_eq_ok_iff_toNat.1 hi
    exact hopc (hi ▸ opc_toNat_mem i)
  · obtain ⟨-, himm8, hi⟩ := decode_eq_ok_iff_toNat.1 hi
    exact himm (himm8.trans (imm8_eq_zero_of_opc_ne (hi ▸ hopc)))
  · refine step_cmd_ok h (decode_eq_ok_iff_toNat.2 ⟨hrsvd, ?_, hopc⟩)
    simp [Instr.imm8]
  · have runs (i : Instr) (hi : i.imm8 = 0) (hopc : w.toNat % 2 ^ 8 = i.opc.toNat) :=
      step_cmd_ok h (decode_eq_ok_iff_toNat.2 ⟨hrsvd, himm.trans (by rw [hi]; rfl), hopc⟩)
    exact ⟨runs .crcClr rfl, runs .crcBuf rfl, runs .stuff rfl, runs .unstuff rfl, runs .unstuffC rfl,
      runs .hexEnc rfl, runs .hexDec rfl⟩

end Sys2Proof.Machine
end

section
/-! SUPPORT. The CHECKSUM pseudo-instruction (R69): two register writes, then CRC.CLR and CRC.BUF over the range. -/

namespace Sys2Proof.Machine

/-! ### The commands -/

theorem acc_setAcc_succeed (s : State) (a : Byte) (b : Bool) : ((s.setAcc a).succeed b).acc = a :=
  lowByte_zextByte a

/-- R85, over a range inside BUF with every byte written. -/
theorem step_crcBuf_of_holds {s : State} {rest : List Input} {xs : List Byte}
    (h : s.inputs = .access (commandOp .crcBuf) :: rest) (hin : s.srcAddr + s.lenBytes ≤ s.bufSize)
    (hlen : xs.length = s.lenBytes) (hx : s.holds s.srcAddr xs) :
    step s = .next ((State.setAcc { s with cmd := encode .crcBuf, inputs := rest } (xs.foldl crcStep s.acc)).succeed
      false) := by
  have hloop : crcLoop s.lenBytes s.srcAddr s.buf s.acc = .ok (xs.foldl crcStep s.acc) := hlen ▸ crcLoop_ok hx
  rw [step_commandOp h]
  exact (if_pos (rangeInside_iff.2 hin)).trans (congrArg (finish · _) hloop)

/-- The command lines of R69's expansion, once SRC and LEN give the range. -/
theorem run_crcClr_crcBuf {s : State} {rest : List Input} {xs : List Byte}
    (h : s.inputs = .access (commandOp .crcClr) :: .access (commandOp .crcBuf) :: rest)
    (hin : s.srcAddr + s.lenBytes ≤ s.bufSize) (hlen : xs.length = s.lenBytes) (hx : s.holds s.srcAddr xs) :
    ∃ t, Host.Core.run core 2 s = .next t ∧ t.acc = checksum xs ∧ t.status = 0x00000000 ∧ t.inputs = rest ∧
      t.buf = s.buf := by
  have hclr := (step_commandOp h).trans (execCrcClr_eq _)
  refine ⟨_, run_two hclr (step_crcBuf_of_holds rfl hin hlen hx), ?_, rfl, rfl, rfl⟩
  rw [acc_setAcc_succeed, acc_setAcc_succeed]
  rfl

/-! ### The register writes -/

theorem lowHalf_toNat_of_lt {w : Word} (h : w.toNat < 2 ^ 16) : (lowHalf w).toNat = w.toNat := by
  rw [← zextHalf_toNat, zextHalf_lowHalf h]

theorem writeReg_src_srcAddr (s : State) {b : Word} (h : b.toNat < 2 ^ 16) :
    (s.writeReg .src b).srcAddr = b.toNat := by
  rw [← lowHalf_toNat_of_lt h]
  exact congrArg BitVec.toNat (lowHalf_zextHalf _)

theorem writeReg_len_lenBytes (s : State) {n : Word} (h : n.toNat < 2 ^ 16) :
    (s.writeReg .len n).lenBytes = n.toNat := by
  rw [← lowHalf_toNat_of_lt h]
  exact congrArg BitVec.toNat (lowHalf_zextHalf _)

theorem run_writeSrc_writeLen {s : State} {rest : List Input} {b n : Word}
    (h : s.inputs = .access (writeOp .src b) :: .access (writeOp .len n) :: rest) (k : Nat) :
    Host.Core.run core (k + 2) s =
      Host.Core.run core k ((State.writeReg { s with inputs := rest } .src b).writeReg .len n) := by
  have hsrc := step_regWrite (r := .src) h (by decide)
  have hlen := step_regWrite (s := State.writeReg { s with inputs := .access (writeOp .len n) :: rest } .src b)
    (r := .len) (w := n) (rest := rest) rfl (by decide)
  rw [run_succ hsrc, run_succ hlen]
  rfl

/-- Settles O32: two register writes name the range, and the two commands absorb it. -/
theorem checksumPseudoInstruction : Obligations.ChecksumPseudoInstruction := by
  intro s b n ops rest xs hs hops hin hrange hlen hx
  cases hops
  have hmax : s.bufSize ≤ 32768 := hs.bufSize_max
  rw [run_writeSrc_writeLen hin]
  have hb := writeReg_src_srcAddr s (b := b) (by omega)
  have hn := writeReg_len_lenBytes s (n := n) (by omega)
  refine run_crcClr_crcBuf rfl ?_ (hlen.trans hn.symm) ?_
  · exact (congrArg₂ (· + ·) hb hn).trans_le hrange
  · exact hb.symm ▸ hx

end Sys2Proof.Machine
end

section
/-! SUPPORT. What each command reads (R63): from two states that agree on it, a command ends the same way, and its one
update of State gives both the same values. -/

namespace Sys2Proof.Machine

/-- Two outcomes of one command, from `s` and from `s'`: the same error raised, the same value `x` of the command's work
put into both states by its update `upd`, or the same model fault. -/
inductive SameEnd {α : Type} (upd : State → α → State) (s s' : State) :
    Host.Outcome State Fault Refusal → Host.Outcome State Fault Refusal → Prop where
  | raised (e : CmdError) : SameEnd upd s s' (.next (s.raise e)) (.next (s'.raise e))
  | updated (x : α) : SameEnd upd s s' (.next (upd s x)) (.next (upd s' x))
  | faulted (f : Fault) : SameEnd upd s s' (.fault f) (.fault f)

theorem sameEnd_finish {α : Type} (upd : State → α → State) (s s' : State) (r : Except Fault α) :
    SameEnd upd s s' (finish r (upd s)) (finish r (upd s')) := by
  cases r with
  | error f => exact .faulted f
  | ok x => exact .updated x

/-! ### The updates -/

/-- CRC.BUF's: the accumulator (R85). -/
def State.endAccumulate (s : State) (a : Byte) : State := (s.setAcc a).succeed false

/-- STUFF's and HEX.ENC's: BUF (R90, R112). -/
def State.endStore (s : State) (m : Memory) : State := { s with buf := m }.succeed false

namespace SameEnd

variable {s s' : State} {o o' : Host.Outcome State Fault Refusal}

theorem crc_status_agree (h : SameEnd State.endAccumulate s s' o o') :
    (∃ c st, o = .next { s with status := st } ∧ o' = .next { s' with status := st } ∨
      o = .next { s with crc := c, status := st } ∧ o' = .next { s' with crc := c, status := st }) ∨
    ∃ f, o = .fault f ∧ o' = .fault f := by
  cases h with
  | raised e => exact .inl ⟨0, _, .inl ⟨rfl, rfl⟩⟩
  | updated a => exact .inl ⟨_, _, .inr ⟨rfl, rfl⟩⟩
  | faulted f => exact .inr ⟨f, rfl, rfl⟩

theorem buf_status_agree (hbuf : s.buf = s'.buf) (h : SameEnd State.endStore s s' o o') :
    (∃ m st, o = .next { s with buf := m, status := st } ∧ o' = .next { s' with buf := m, status := st }) ∨
    ∃ f, o = .fault f ∧ o' = .fault f := by
  cases h with
  | raised e => exact .inl ⟨s.buf, _, rfl, hbuf ▸ rfl⟩
  | updated m => exact .inl ⟨m, _, rfl, rfl⟩
  | faulted f => exact .inr ⟨f, rfl, rfl⟩

theorem endStore_of_endHexDec (hbuf : s.buf = s'.buf) (hdst : s.dstAddr = s'.dstAddr)
    (h : SameEnd State.endHexDec s s' o o') : SameEnd State.endStore s s' o o' := by
  cases h with
  | raised e => exact .raised e
  | updated vs =>
    cases vs with
    | none => exact .raised .illegalHex
    | some vs =>
      have hs' : s'.endHexDec (some vs) = s'.endStore (hexStore vs s.dstAddr s.buf) := by rw [hbuf, hdst]; rfl
      exact hs' ▸ .updated (hexStore vs s.dstAddr s.buf)
  | faulted f => exact .faulted f

theorem buf_next_status_agree (h : SameEnd State.endWalk s s' o o') :
    (∃ m n st, o = .next { s with status := st } ∧ o' = .next { s' with status := st } ∨
      o = .next { s with buf := m, next := n, status := st } ∧
      o' = .next { s' with buf := m, next := n, status := st }) ∨
    ∃ f, o = .fault f ∧ o' = .fault f := by
  cases h with
  | raised e => exact .inl ⟨[], 0, _, .inl ⟨rfl, rfl⟩⟩
  | updated e => exact .inl ⟨_, _, _, .inr ⟨rfl, rfl⟩⟩
  | faulted f => exact .inr ⟨f, rfl, rfl⟩

end SameEnd

/-! ### The commands -/

/-- Two states that agree on BUF_SIZE and on what every command over BUF reads. -/
structure SameRange (s s' : State) : Prop where
  bufSize : s.bufSize = s'.bufSize
  buf : s.buf = s'.buf
  srcAddr : s.srcAddr = s'.srcAddr
  lenBytes : s.lenBytes = s'.lenBytes

namespace SameRange

variable {s s' : State}

theorem rangeInside (h : SameRange s s') (b n : Nat) : s.rangeInside b n = s'.rangeInside b n := by
  rw [State.rangeInside, State.rangeInside, h.bufSize]

theorem walkFrom (h : SameRange s s') (next : Half) (m : Memory) : s.walkFrom next m = s'.walkFrom next m := by
  rw [State.walkFrom, State.walkFrom, h.srcAddr, h.lenBytes]

theorem sameEnd_crcBuf (h : SameRange s s') (hacc : s.acc = s'.acc) :
    SameEnd State.endAccumulate s s' (exec .crcBuf s) (exec .crcBuf s') := by
  change SameEnd _ s s' (execCrcBuf s) (execCrcBuf s')
  simp only [execCrcBuf, h.rangeInside, h.srcAddr, h.lenBytes, h.buf, hacc]
  split
  · exact sameEnd_finish State.endAccumulate s s' _
  · exact .raised .range

theorem sameEnd_stuff (h : SameRange s s') : SameEnd State.endStore s s' (exec .stuff s) (exec .stuff s') := by
  change SameEnd _ s s' (execStuff s) (execStuff s')
  simp only [execStuff, h.rangeInside, h.srcAddr, h.lenBytes, h.buf]
  split
  · exact .raised .length
  · split
    · exact sameEnd_finish State.endStore s s' _
    · exact .raised .range

theorem sameEnd_unstuff (h : SameRange s s') : SameEnd State.endWalk s s' (exec .unstuff s) (exec .unstuff s') := by
  change SameEnd _ s s' (execUnstuff s) (execUnstuff s')
  simp only [execUnstuff, h.rangeInside, h.walkFrom, h.srcAddr, h.lenBytes, h.buf]
  split
  · exact .raised .length
  · split
    · split
      · exact .faulted _
      · exact sameEnd_finish State.endWalk s s' _
    · exact .raised .range

theorem sameEnd_unstuffC (h : SameRange s s') (hnext : s.nextIndex = s'.nextIndex) :
    SameEnd State.endWalk s s' (exec .unstuffC s) (exec .unstuffC s') := by
  change SameEnd _ s s' (execUnstuffC s) (execUnstuffC s')
  simp only [execUnstuffC, h.rangeInside, h.walkFrom, h.srcAddr, h.lenBytes, h.buf, hnext]
  split
  · exact sameEnd_finish State.endWalk s s' _
  · exact .raised .range

theorem sameEnd_hexEnc (h : SameRange s s') (hdst : s.dstAddr = s'.dstAddr) :
    SameEnd State.endStore s s' (exec .hexEnc s) (exec .hexEnc s') := by
  change SameEnd _ s s' (execHexEnc s) (execHexEnc s')
  simp only [execHexEnc, h.rangeInside, h.srcAddr, h.lenBytes, h.buf, hdst]
  split
  · split
    · exact .raised .overlap
    · exact sameEnd_finish State.endStore s s' _
  · exact .raised .range

theorem sameEnd_hexDec (h : SameRange s s') (hdst : s.dstAddr = s'.dstAddr) :
    SameEnd State.endStore s s' (exec .hexDec s) (exec .hexDec s') := by
  refine SameEnd.endStore_of_endHexDec h.buf hdst ?_
  change SameEnd _ s s' (execHexDec s) (execHexDec s')
  simp only [execHexDec, h.rangeInside, h.srcAddr, h.lenBytes, h.buf, hdst]
  split
  · split
    · exact .raised .overlap
    · exact sameEnd_finish State.endHexDec s s' _
  · exact .raised .range

end SameRange

/-- Settles O49: CRC.CLR reads nothing and CRC.B only ACC; every other command ends as its `SameEnd` says. -/
theorem commandsReadAndWriteTheirOwnRegisters : Obligations.CommandsReadAndWriteTheirOwnRegisters := by
  refine ⟨fun s => ⟨_, _, fun s' => ⟨rfl, rfl⟩⟩, fun s s' =>
    ⟨fun b hacc => ⟨_, _, rfl, ?_⟩, fun hsize hbuf hsrc hlen => ?_⟩⟩
  · rw [hacc]
    rfl
  · have h : SameRange s s' := ⟨hsize, hbuf, hsrc, hlen⟩
    refine ⟨fun hacc => (h.sameEnd_crcBuf hacc).crc_status_agree, h.sameEnd_stuff.buf_status_agree hbuf,
      h.sameEnd_unstuff.buf_next_status_agree,
      fun hnext => (h.sameEnd_unstuffC hnext).buf_next_status_agree, fun hdst i hi => ?_⟩
    obtain rfl | rfl := hi
    · exact (h.sameEnd_hexEnc hdst).buf_status_agree hbuf
    · exact (h.sameEnd_hexDec hdst).buf_status_agree hbuf

end Sys2Proof.Machine
end

section
/-! SUPPORT. The laws of the checksum (R82) and the CRC commands (R83 to R86): how an error in the message travels
through the rounds that follow it, and what CRC.BUF does over a range. -/

namespace Sys2Proof.Machine

/-! ### Rounds -/

theorem crcRounds_add (n k : Nat) (c : Byte) : crcRounds (n + k) c = crcRounds n (crcRounds k c) := by
  induction k generalizing c with
  | zero => rfl
  | succ k ih => exact ih (crcRound c)

/-- The shift fills bit 0 with 0, and the feedback constant has bit 0 = 0. -/
theorem crcRound_even (c : Byte) : (crcRound c).getLsbD 0 = false := by revert c; decide

theorem crcStep_even (a b : Byte) : (crcStep a b).getLsbD 0 = false := by
  rw [crcStep, crcRounds_add 1 7]
  exact crcRound_even _

/-- 0xD3 is `p(x)` of R82, and one round multiplies by `x`: `x * p(x)` is the modulus. -/
theorem eq_of_crcRound_eq_zero : ∀ c : Byte, crcRound c = 0 → c = 0 ∨ c = 0xD3 := by decide

theorem eq_of_crcRounds_eq_zero {n : Nat} {c : Byte} (h : crcRounds n c = 0) : c = 0 ∨ c = 0xD3 := by
  induction n generalizing c with
  | zero => exact .inl h
  | succ n ih =>
    obtain hzero | hodd := ih h
    · exact eq_of_crcRound_eq_zero c hzero
    · exact absurd (hodd ▸ crcRound_even c) (by decide)

/-- The order of `x` modulo `p(x)` is 127 (R82, law 4), so modulo `x * p(x)` the power `x^128` is `x`. -/
theorem crcRounds_one_period (n : Nat) : crcRounds (n + 128) 1 = crcRounds (n + 1) 1 := by
  have hpowers : crcRounds 32 1 = 0xFA ∧ crcRounds 32 0xFA = 0xE0 ∧ crcRounds 32 0xE0 = 0x26 ∧
      crcRounds 32 0x26 = crcRounds 1 1 := by simp [crcRounds, crcRound, Config.crcPoly]
  obtain ⟨h32, h64, h96, h128⟩ := hpowers
  have hperiod : crcRounds (32 + 32 + 32 + 32) 1 = crcRounds 1 1 := by
    rw [crcRounds_add, crcRounds_add, crcRounds_add, h32, h64, h96, h128]
  rw [crcRounds_add n 128, crcRounds_add n 1, hperiod]

theorem one_shiftLeft_eq_crcRounds : ∀ k, k < 8 → 1#8 <<< k = crcRounds k 1 := by decide

/-! ### The checksum -/

theorem checksum_append (m m' : List Byte) : checksum (m ++ m') = m'.foldl crcStep (checksum m) :=
  List.foldl_append

theorem checksum_concat (m : List Byte) (b : Byte) : checksum (m ++ [b]) = crcStep (checksum m) b :=
  checksum_append m [b]

theorem checksum_even (m : List Byte) : (checksum m).getLsbD 0 = false := by
  induction m using List.reverseRecOn with
  | nil => rfl
  | append_singleton m b => rw [checksum_concat]; exact crcStep_even _ b

theorem checksum_zeros (n : Nat) : checksum (List.replicate n 0x00) = 0x00 := by
  induction n with
  | zero => rfl
  | succ n ih => rw [List.replicate_succ', checksum_concat, ih]; exact crcStep_self 0

theorem foldl_crcStep_zipWith_xor {m m' : List Byte} (h : m.length = m'.length) (a a' : Byte) :
    (List.zipWith (· ^^^ ·) m m').foldl crcStep (a ^^^ a') = m.foldl crcStep a ^^^ m'.foldl crcStep a' := by
  induction m generalizing m' a a' with
  | nil => cases m' with
    | nil => rfl
    | cons => cases h
  | cons b m ih => cases m' with
    | nil => cases h
    | cons b' m' =>
      simp only [List.zipWith_cons_cons, List.foldl_cons, crcStep_xor]
      exact ih (Nat.succ.inj h) _ _

/-- Settles O27: the byte step is linear, and the initial value is 0. -/
theorem checksumIsLinear : Obligations.ChecksumIsLinear := fun _ _ h => foldl_crcStep_zipWith_xor h 0 0

/-- Settles O28: absorbing goes left to right, and a byte absorbed into itself leaves 0. -/
theorem checksumSplitsAndLeavesNoResidue : Obligations.ChecksumSplitsAndLeavesNoResidue :=
  ⟨checksum_append, fun m => (checksum_concat m _).trans (crcStep_self _)⟩

/-! ### Errors in a message -/

theorem crcStep_xor_left (a e b : Byte) : crcStep (a ^^^ e) b = crcStep a b ^^^ crcRounds 8 e := by
  rw [crcStep, crcStep, BitVec.xor_assoc, BitVec.xor_comm e, ← BitVec.xor_assoc, crcRounds_xor]

theorem crcStep_xor_right (a b e : Byte) : crcStep a (b ^^^ e) = crcStep a b ^^^ crcRounds 8 e := by
  rw [crcStep, crcStep, ← BitVec.xor_assoc, crcRounds_xor]

theorem foldl_crcStep_xor_left (m : List Byte) (a e : Byte) :
    m.foldl crcStep (a ^^^ e) = m.foldl crcStep a ^^^ crcRounds (8 * m.length) e := by
  induction m generalizing a e with
  | nil => rfl
  | cons b m ih => rw [List.foldl_cons, List.foldl_cons, crcStep_xor_left, ih, ← crcRounds_add]; rfl

/-- The error `e` of one byte passes through the eight rounds of that byte and of every byte after it. -/
theorem checksum_xor_byte (m m' : List Byte) (b e : Byte) :
    checksum (m ++ [b ^^^ e] ++ m') = checksum (m ++ [b] ++ m') ^^^ crcRounds (8 * (m'.length + 1)) e := by
  rw [checksum_append (m ++ _), checksum_append (m ++ _), checksum_concat, checksum_concat, crcStep_xor_right,
    foldl_crcStep_xor_left, ← crcRounds_add]
  rfl

/-- Two errors cancel when the first, where it meets the second, has become the same. -/
theorem checksum_xor_two_bytes {e f : Byte} {gap : List Byte}
    (h : crcRounds (8 * (gap.length + 2)) e = crcRounds 8 f) (m m' : List Byte) (b c : Byte) :
    checksum (m ++ [b ^^^ e] ++ gap ++ [c ^^^ f] ++ m') = checksum (m ++ [b] ++ gap ++ [c] ++ m') := by
  have hfirst := checksum_xor_byte m (gap ++ [c ^^^ f] ++ m') b e
  have hsecond := checksum_xor_byte (m ++ [b] ++ gap) m' c f
  have hlength : (gap ++ [c ^^^ f] ++ m').length + 1 = m'.length + (gap.length + 2) := by
    rw [List.length_append, List.length_append, List.length_singleton]
    omega
  rw [hlength, Nat.mul_add, crcRounds_add, h, ← crcRounds_add, ← Nat.mul_succ] at hfirst
  simp only [← List.append_assoc] at hfirst hsecond
  rw [hfirst, hsecond, xor_cancel_right]

/-- Settles O29: no number of rounds takes a single bit to 0, since a single bit is neither 0 nor 0xD3. -/
theorem singleBitErrorIsDetected : Obligations.SingleBitErrorIsDetected := by
  intro m m' b k hk heq
  rw [checksum_xor_byte, xor_left_eq_self_iff] at heq
  have hbit : ∀ k, k < 8 → ¬(1#8 <<< k = 0 ∨ 1#8 <<< k = 0xD3) := by decide
  exact hbit k hk (eq_of_crcRounds_eq_zero heq)

theorem checksum_flip_two_bits {gap : List Byte} {k j : Nat} (hk : k < 8) (hj : j < 8)
    (hgap : 8 * (gap.length + 1) + k = 127 + j) (m m' : List Byte) (b c : Byte) :
    checksum (m ++ [b ^^^ (1#8 <<< k)] ++ gap ++ [c ^^^ (1#8 <<< j)] ++ m') =
      checksum (m ++ [b] ++ gap ++ [c] ++ m') := by
  refine checksum_xor_two_bytes ?_ m m' b c
  rw [one_shiftLeft_eq_crcRounds k hk, one_shiftLeft_eq_crcRounds j hj, ← crcRounds_add, ← crcRounds_add,
    show 8 * (gap.length + 2) + k = 7 + j + 128 by omega, crcRounds_one_period]
  congr 1
  omega

/-- Settles O30: 127 rounds apart, the two bits meet as the same bit. -/
theorem bitErrors127ApartAreNotDetected : Obligations.BitErrors127ApartAreNotDetected :=
  fun m m' _ b c =>
    ⟨fun hgap => checksum_flip_two_bits (k := 7) (j := 0) (by omega) (by omega) (by omega) m m' b c,
      fun hgap _ hk => checksum_flip_two_bits (by omega) (by omega) (by omega) m m' b c⟩

/-- `p(x)` at any bit position of two adjacent bytes. -/
theorem crcRounds_shifted_0xD3 : ∀ k, k ≤ 8 →
    crcRounds 16 ((0x00D3#16 <<< k).extractLsb' 8 8) = crcRounds 8 ((0x00D3#16 <<< k).extractLsb' 0 8) := by
  intro k hk
  interval_cases k <;> rfl

/-- Settles O26: every round leaves bit 0 = 0, a shift of 0xD3 cancels itself, and zero bytes leave ACC 0. -/
theorem checksumEvenAndBlindTo0xD3 : Obligations.ChecksumEvenAndBlindTo0xD3 := by
  refine ⟨fun a b => ⟨crcStep_even a b, ?_⟩, fun m m' a b k hk => ?_, fun n m => ⟨checksum_even m, ?_⟩⟩
  · have hblind : crcRounds 8 0xD3 = 0#8 := by decide
    rw [crcStep_xor_left, hblind, BitVec.xor_zero]
  · simpa using checksum_xor_two_bytes (gap := []) (crcRounds_shifted_0xD3 k hk) m m' a b
  · rw [checksum_append, checksum_zeros]
    rfl

/-! ### The step table -/

theorem crcTable_getElem? : ∀ x : Byte, crcTable[x.toNat]? = some (crcStep 0x00 x) := by decide

/-- Settles O21: the table holds the step of every byte, and the step depends on `a ^^^ b` alone. -/
theorem crcStepMatchesPrintedTable : Obligations.CrcStepMatchesPrintedTable := by
  intro a b
  have hrow (a : Byte) : crcTable[(a ^^^ b).toNat]? = some (crcStep a b) := by
    rw [crcTable_getElem?, ← crcStep_eq]
  exact ⟨hrow 0x00, hrow a⟩

/-! ### The commands -/

/-- Settles O22: the command's one equation, in any state. -/
theorem crcClrResult : Obligations.CrcClrResult := ⟨rfl, execCrcClr_eq⟩

/-- Settles O23: the command's word is its encoding, and the accumulator it leaves is a result of the byte step. -/
theorem crcBResult : Obligations.CrcBResult :=
  ⟨fun b => decode_encode (.crcB b), fun s b => ⟨execCrcB_eq b s, crcStep_even s.acc b⟩⟩

section

variable {s : State}

theorem execCrcBuf_inside (hin : s.srcAddr + s.lenBytes ≤ s.bufSize) :
    execCrcBuf s = finish (crcLoop s.lenBytes s.srcAddr s.buf s.acc) s.endAccumulate :=
  if_pos (rangeInside_iff.2 hin)

theorem execCrcBuf_range (hout : s.bufSize < s.srcAddr + s.lenBytes) : execCrcBuf s = .next (s.raise .range) :=
  if_neg (by rw [rangeInside_iff]; omega)

theorem execCrcBuf_holds {xs : List Byte} (hin : s.srcAddr + s.lenBytes ≤ s.bufSize) (hlen : xs.length = s.lenBytes)
    (hx : s.holds s.srcAddr xs) : execCrcBuf s = .next (s.endAccumulate (xs.foldl crcStep s.acc)) := by
  rw [execCrcBuf_inside hin, ← hlen, crcLoop_ok hx, finish_ok]

theorem execCrcBuf_unwritten {j : Nat} (hin : s.srcAddr + s.lenBytes ≤ s.bufSize) (hj : j < s.lenBytes)
    (hw : ∀ i, i < j → memRead s.buf (s.srcAddr + i) ≠ none) (hn : memRead s.buf (s.srcAddr + j) = none) :
    execCrcBuf s = .fault (.unwrittenRead (s.srcAddr + j)) := by
  rw [execCrcBuf_inside hin, crcLoop_unwritten hj hw hn, finish_error]

end

/-- Settles O24: the range test, and the two ends of the loop over a range inside BUF. -/
theorem crcBufResult : Obligations.CrcBufResult :=
  ⟨rfl, fun _ => ⟨execCrcBuf_range, fun hin _ hlen hx => execCrcBuf_holds hin hlen hx,
    fun hin _ hj hw hn => execCrcBuf_unwritten hin hj hw hn⟩⟩

/-! ### Any split of a message -/

theorem holds_append {s : State} {a : Nat} {xs ys : List Byte} (h : s.holds a (xs ++ ys)) :
    s.holds a xs ∧ s.holds (a + xs.length) ys := by
  constructor
  · intro i hi
    rw [h i (by rw [List.length_append]; omega), List.getElem?_append_left hi]
  · intro i hi
    rw [Nat.add_assoc, h (xs.length + i) (by rw [List.length_append]; omega),
      List.getElem?_append_right (by omega), Nat.add_sub_cancel_left]

/-- R86: "with SRC and LEN set to the part". -/
def State.setRange (s : State) (a n : Nat) : State := { s with src := BitVec.ofNat 32 a, len := BitVec.ofNat 32 n }

theorem setRange_srcAddr {s : State} {a n : Nat} (ha : a < 2 ^ 16) : (s.setRange a n).srcAddr = a :=
  (lowHalf_ofNat a).trans (Nat.mod_eq_of_lt ha)

theorem setRange_lenBytes {s : State} {a n : Nat} (hn : n < 2 ^ 16) : (s.setRange a n).lenBytes = n :=
  (lowHalf_ofNat n).trans (Nat.mod_eq_of_lt hn)

theorem absorb_range_of_next {s t : State} {m : List Byte} {a : Nat}
    (h : exec .crcBuf (s.setRange a m.length) = .next t) (ps : List AbsorbPart) :
    absorb (.range m :: ps) a s = absorb ps (a + m.length) t := by
  rw [State.setRange] at h
  rw [absorb, h]

theorem exec_crcBuf_setRange {s : State} {a : Nat} {xs : List Byte} (hmax : s.bufSize < 2 ^ 16)
    (hin : a + xs.length ≤ s.bufSize) (hx : s.holds a xs) :
    exec .crcBuf (s.setRange a xs.length) =
      .next ((s.setRange a xs.length).endAccumulate (xs.foldl crcStep s.acc)) := by
  have hsrc : (s.setRange a xs.length).srcAddr = a := setRange_srcAddr (by omega)
  have hlen : (s.setRange a xs.length).lenBytes = xs.length := setRange_lenBytes (by omega)
  refine execCrcBuf_holds ?_ hlen.symm ?_
  · rwa [hsrc, hlen]
  · rwa [hsrc]

theorem absorb_cons {s : State} {p : AbsorbPart} {a : Nat} (hmax : s.bufSize < 2 ^ 16)
    (hin : a + p.bytes.length ≤ s.bufSize) (hx : s.holds a p.bytes) (ps : List AbsorbPart) :
    ∃ t : State, absorb (p :: ps) a s = absorb ps (a + p.bytes.length) t ∧ t.acc = p.bytes.foldl crcStep s.acc ∧
      t.status = 0x00000000 ∧ t.buf = s.buf ∧ t.bufSize = s.bufSize := by
  cases p with
  | range m =>
    exact ⟨_, absorb_range_of_next (exec_crcBuf_setRange hmax hin hx) ps, acc_setAcc_succeed _ _ _, rfl, rfl, rfl⟩
  | byte b => exact ⟨_, rfl, acc_setAcc_succeed _ _ _, rfl, rfl, rfl⟩

theorem absorb_holds {s : State} {ps : List AbsorbPart} {a : Nat} (hmax : s.bufSize < 2 ^ 16)
    (hin : a + (ps.flatMap AbsorbPart.bytes).length ≤ s.bufSize) (hx : s.holds a (ps.flatMap AbsorbPart.bytes))
    (hok : s.status = 0x00000000) :
    ∃ u, absorb ps a s = .next u ∧ u.acc = (ps.flatMap AbsorbPart.bytes).foldl crcStep s.acc ∧
      u.status = 0x00000000 ∧ u.buf = s.buf := by
  induction ps generalizing s a with
  | nil => exact ⟨s, rfl, rfl, hok, rfl⟩
  | cons p ps ih =>
    rw [List.flatMap_cons] at hin hx ⊢
    rw [List.length_append] at hin
    obtain ⟨hp, hps⟩ := holds_append hx
    obtain ⟨t, ht, hacc, hstatus, hbuf, hsize⟩ := absorb_cons hmax (by omega) hp ps
    obtain ⟨u, hu, haccu, hstatusu, hbufu⟩ := ih (s := t) (a := a + p.bytes.length) (by omega) (by omega)
      (fun i hi => hbuf ▸ hps i hi) hstatus
    refine ⟨u, ht.trans hu, ?_, hstatusu, hbufu.trans hbuf⟩
    rw [haccu, hacc, List.foldl_append]

/-- Settles O25: CRC.CLR leaves ACC = 0, and the parts fold the byte step over the message one after the other. -/
theorem anySplitGivesChecksum : Obligations.AnySplitGivesChecksum := by
  intro s ps a hs hin hx
  have hmax : s.bufSize ≤ 32768 := hs.bufSize_max
  have hclr := execCrcClr_eq s
  obtain ⟨u, hu, hacc, hstatus, hbuf⟩ := absorb_holds (s := (s.setAcc 0x00).succeed false)
    (Nat.lt_of_le_of_lt hmax (by decide)) hin hx rfl
  exact ⟨_, u, hclr, hu, hacc.trans (by rw [acc_setAcc_succeed]; rfl), hstatus, hbuf⟩

end Sys2Proof.Machine
end

section
/-! SUPPORT. The checksum as a polynomial remainder over GF(2) (R82, law 2): one round of the byte step multiplies by
`X` in the quotient by the modulus. -/

namespace Sys2Proof.Machine

open Polynomial

noncomputable section

/-- A byte as a polynomial over GF(2). -/
def bytePoly (b : Byte) : (ZMod 2)[X] := ∑ k ∈ Finset.range 8, if b.getLsbD k then X ^ k else 0

/-- A message as one bit string, most significant bit of the first byte first. -/
def msgPoly (m : List Byte) : (ZMod 2)[X] := m.foldl (fun p b => p * X ^ 8 + bytePoly b) 0

/-- R82's `g(x)`. -/
def crcModulus : (ZMod 2)[X] := X ^ 8 + X ^ 7 + X ^ 5 + X ^ 2 + X

end

/-! ### Bytes as polynomials -/

theorem msgPoly_concat (m : List Byte) (b : Byte) : msgPoly (m ++ [b]) = msgPoly m * X ^ 8 + bytePoly b :=
  List.foldl_append

theorem bytePoly_xor (a b : Byte) : bytePoly (a ^^^ b) = bytePoly a + bytePoly b := by
  rw [bytePoly, bytePoly, bytePoly, ← Finset.sum_add_distrib]
  refine Finset.sum_congr rfl fun k _ => ?_
  rw [BitVec.getLsbD_xor]
  cases a.getLsbD k <;> cases b.getLsbD k <;> simp [CharTwo.add_self_eq_zero]

theorem bytePoly_degree_lt (b : Byte) : (bytePoly b).degree < 8 := by
  refine (degree_sum_le _ _).trans_lt ((Finset.sup_lt_iff (by decide)).2 fun k hk => ?_)
  split
  · rw [degree_X_pow]
    exact_mod_cast Finset.mem_range.1 hk
  · rw [degree_zero]
    exact WithBot.bot_lt_coe 8

theorem crcModulus_degree : crcModulus.degree = 8 := by
  rw [crcModulus]
  compute_degree!

theorem crcModulus_monic : crcModulus.Monic := by
  rw [crcModulus]
  monicity!

theorem bytePoly_crcPoly : X ^ 8 + bytePoly Config.crcPoly = crcModulus := by
  simp [bytePoly, crcModulus, Config.crcPoly, Finset.sum_range_succ]
  ring

theorem bytePoly_shiftLeft (c : Byte) :
    bytePoly (c <<< 1) = X * bytePoly c + if c.getLsbD 7 then X ^ 8 else 0 := by
  rw [← CharTwo.sub_eq_add]
  simp [bytePoly, Finset.sum_range_succ, mul_add]
  ring_nf

/-! ### Rounds in the quotient by the modulus -/

/-- One round multiplies by `X`, and reduces. -/
theorem bytePoly_crcRound (c : Byte) :
    bytePoly (crcRound c) = X * bytePoly c + if c.getLsbD 7 then crcModulus else 0 := by
  have hshift := bytePoly_shiftLeft c
  unfold crcRound
  split
  case isTrue hbit =>
    rw [if_pos hbit] at hshift
    rw [bytePoly_xor, hshift, add_assoc, bytePoly_crcPoly]
  case isFalse hbit =>
    rw [if_neg hbit] at hshift
    exact hshift

theorem mk_bytePoly_crcRound (c : Byte) :
    AdjoinRoot.mk crcModulus (bytePoly (crcRound c)) = AdjoinRoot.mk crcModulus (bytePoly c * X) := by
  rw [bytePoly_crcRound, map_add, mul_comm]
  split
  · rw [AdjoinRoot.mk_self, add_zero]
  · rw [map_zero, add_zero]

theorem mk_bytePoly_crcRounds (n : Nat) (c : Byte) :
    AdjoinRoot.mk crcModulus (bytePoly (crcRounds n c)) = AdjoinRoot.mk crcModulus (bytePoly c * X ^ n) := by
  induction n generalizing c with
  | zero => rw [crcRounds, pow_zero, mul_one]
  | succ n ih => rw [crcRounds, ih, map_mul, mk_bytePoly_crcRound, ← map_mul, pow_succ', mul_assoc]

theorem mk_bytePoly_checksum (m : List Byte) :
    AdjoinRoot.mk crcModulus (bytePoly (checksum m)) = AdjoinRoot.mk crcModulus (msgPoly m * X ^ 8) := by
  induction m using List.reverseRecOn with
  | nil => simp [msgPoly, bytePoly]
  | append_singleton m b ih =>
    rw [checksum_concat, crcStep, mk_bytePoly_crcRounds, bytePoly_xor, msgPoly_concat, map_mul, map_add, ih,
      ← map_add, ← map_mul]

/-- Settles O31: a checksum is a polynomial of degree below the modulus' that the quotient takes to `M * X^8`. -/
theorem checksumIsPolynomialRemainder : Obligations.ChecksumIsPolynomialRemainder := by
  intro m
  have hreduced : bytePoly (checksum m) %ₘ crcModulus = bytePoly (checksum m) :=
    (modByMonic_eq_self_iff crcModulus_monic).2 (crcModulus_degree ▸ bytePoly_degree_lt _)
  have hcongr : bytePoly (checksum m) %ₘ crcModulus = (msgPoly m * X ^ 8) %ₘ crcModulus :=
    modByMonic_eq_of_dvd_sub crcModulus_monic (AdjoinRoot.mk_eq_mk.1 (mk_bytePoly_checksum m))
  exact hreduced.symm.trans hcongr

end Sys2Proof.Machine
end

section
/-! SUPPORT. STUFF (R90, R91): the memory it leaves, and the offset chain in it. -/

namespace Sys2Proof.Machine

/-! ### Bytes read as a function of the index -/

/-- The bytes of `m` from `base` on, by index; 0x00 stands for a byte that nothing has written. -/
def bytesAt (m : Memory) (base i : Nat) : Byte := (memRead m (base + i)).getD 0x00

theorem bytesAt_of_some {m : Memory} {base i : Nat} {v : Byte} (h : memRead m (base + i) = some v) :
    bytesAt m base i = v := by
  rw [bytesAt, h]
  rfl

theorem memRead_bytesAt {m : Memory} {base i : Nat} (h : memRead m (base + i) ≠ none) :
    memRead m (base + i) = some (bytesAt m base i) := by
  obtain ⟨v, hv⟩ := Option.ne_none_iff_exists'.1 h
  rw [bytesAt_of_some hv, hv]

/-! ### Anchors and distances -/

theorem exists_next_sentinel {X : Nat → Byte} {i z : Nat} (hiz : i < z) (hz : X z = 0x00) :
    ∃ j, i < j ∧ j ≤ z ∧ X j = 0x00 ∧ ∀ k, i < k → k < j → X k ≠ 0x00 := by
  have hex : ∃ j, i < j ∧ X j = 0x00 := ⟨z, hiz, hz⟩
  obtain ⟨hij, hj⟩ := Nat.find_spec hex
  exact ⟨Nat.find hex, hij, Nat.find_min' hex ⟨hiz, hz⟩, hj, fun k hik hkj hk => Nat.find_min hex hkj ⟨hik, hk⟩⟩

/-- R90: "`i - last` is between 1 and 255 because LEN <= 256 (so `[7:0]` never truncates)". -/
theorem distance_toNat {i j : Nat} (hj : j < 256) : (BitVec.ofNat 8 (j - i)).toNat = j - i := by
  rw [BitVec.toNat_ofNat, Nat.mod_eq_of_lt (by omega)]

/-- What STUFF makes of the memory `m`, whose buffer at `base` has `len` bytes, `X` from index 1 on (R90). -/
structure Stuffed (X : Nat → Byte) (base len : Nat) (m m' : Memory) : Prop where
  /-- An anchor holds the distance to the next sentinel. -/
  anchor : ∀ i j, i < j → j < len → i = 0 ∨ X i = 0x00 → X j = 0x00 → (∀ k, i < k → k < j → X k ≠ 0x00) →
    memRead m' (base + i) = some (BitVec.ofNat 8 (j - i))
  /-- Every byte that is no anchor with a sentinel after it is as before. -/
  frame : ∀ a, (∀ i j, i < j → j < len → i = 0 ∨ X i = 0x00 → X j = 0x00 → a ≠ base + i) →
    memRead m' a = memRead m a

namespace Stuffed

variable {X : Nat → Byte} {base len : Nat} {m m' : Memory}

theorem unchanged (h : Stuffed X base len m m') {i : Nat}
    (hi : i = 0 ∨ X i = 0x00 → ∀ j, i < j → j < len → X j ≠ 0x00) :
    memRead m' (base + i) = memRead m (base + i) := by
  refine h.frame _ fun p q hpq hq hp hXq heq => ?_
  obtain rfl : i = p := by omega
  exact hi hp q hpq hq hXq

theorem distance (h : Stuffed X base len m m') {i z : Nat} (hi : i = 0 ∨ X i = 0x00) (hiz : i < z) (hzl : z < len)
    (hz : X z = 0x00) : ∃ j, i < j ∧ j ≤ z ∧ memRead m' (base + i) = some (BitVec.ofNat 8 (j - i)) := by
  obtain ⟨j, hij, hjz, hj, hmin⟩ := exists_next_sentinel hiz hz
  exact ⟨j, hij, hjz, h.anchor i j hij (by omega) hi hj hmin⟩

theorem written (h : Stuffed X base len m m') {a : Nat} (ha : memRead m a ≠ none) : memRead m' a ≠ none := by
  by_cases hf : ∀ i j, i < j → j < len → i = 0 ∨ X i = 0x00 → X j = 0x00 → a ≠ base + i
  · rwa [h.frame a hf]
  · push Not at hf
    obtain ⟨i, j, hij, hjl, hi, hj, rfl⟩ := hf
    obtain ⟨k, -, -, hr⟩ := h.distance hi hij hjl hj
    simp [hr]

/-- R91 (b): no byte before a sentinel is 0x00. -/
theorem ne_zero (h : Stuffed X base len m m') (hlen : len ≤ 256) {z : Nat} (hzl : z < len) (hz : X z = 0x00)
    (hX : ∀ i, 1 ≤ i → i < len → memRead m (base + i) = some (X i)) {i : Nat} (hiz : i < z) :
    ∃ v, memRead m' (base + i) = some v ∧ v ≠ 0x00 := by
  by_cases hi : i = 0 ∨ X i = 0x00
  · obtain ⟨j, hij, hjz, hr⟩ := h.distance hi hiz hzl hz
    refine ⟨_, hr, fun h0 => ?_⟩
    have hd := distance_toNat (i := i) (show j < 256 by omega)
    rw [h0] at hd
    simp at hd
    omega
  · obtain ⟨hi0, hXi⟩ := not_or.1 hi
    exact ⟨X i, (h.unchanged fun h' => absurd h' hi).trans (hX i (by omega) (by omega)), hXi⟩

/-- R91 (c): the anchors before a sentinel form the offset chain to it, from index 0. -/
theorem hops (h : Stuffed X base len m m') (hlen : len ≤ 256) {z : Nat} (hzl : z < len) (hz : X z = 0x00) :
    ∃ vs, Hops (bytesAt m' base) len 0 vs z ∧ ∀ i, i ∈ vs ↔ i < z ∧ (i = 0 ∨ X i = 0x00) := by
  obtain ⟨vs, hvs, hmem⟩ := hops_of_distances (Y := bytesAt m' base) hz hzl.le
    (fun i j hij hjz hi hj hmin => by
      rw [bytesAt_of_some (h.anchor i j hij (by omega) hi hj hmin), distance_toNat (by omega)])
    z 0 (Nat.sub_le _ _) (Nat.zero_le _) (.inl rfl)
  exact ⟨vs, hvs, fun i => (hmem i).trans (by simp)⟩

end Stuffed

/-! ### The command -/

section

variable {s : State}

theorem execStuff_length (h : 256 < s.lenBytes) : execStuff s = .next (s.raise .length) := if_pos h

theorem execStuff_range (hlen : s.lenBytes ≤ 256) (hout : s.bufSize < s.srcAddr + s.lenBytes) :
    execStuff s = .next (s.raise .range) :=
  (if_neg (Nat.not_lt.2 hlen)).trans (if_neg (by rw [rangeInside_iff]; omega))

theorem execStuff_inside (hlen : s.lenBytes ≤ 256) (hin : s.srcAddr + s.lenBytes ≤ s.bufSize) :
    execStuff s = finish (stuffLoop (s.lenBytes - 1) s.srcAddr 1 0 s.buf) s.endStore :=
  (if_neg (Nat.not_lt.2 hlen)).trans (if_pos (rangeInside_iff.2 hin))

theorem execStuff_stuffed {X : Nat → Byte} (hlen : s.lenBytes ≤ 256) (hin : s.srcAddr + s.lenBytes ≤ s.bufSize)
    (hX : ∀ i, 1 ≤ i → i < s.lenBytes → memRead s.buf (s.srcAddr + i) = some (X i)) :
    ∃ m, execStuff s = .next (s.endStore m) ∧ Stuffed X s.srcAddr s.lenBytes s.buf m := by
  obtain ⟨m, hm, hanchor, hframe⟩ := stuffLoop_ok (n := s.lenBytes - 1) (i := 1) (last := 0) X (by omega)
    fun i h1 hi => hX i h1 (by omega)
  refine ⟨m, by rw [execStuff_inside hlen hin, hm, finish_ok], fun i j hij hj hi hXj hmin => ?_, fun a ha => ?_⟩
  · refine hanchor i j ?_ hij (by omega) (by omega) hXj fun k hik _ hkj => hmin k hik hkj
    exact (Nat.eq_zero_or_pos i).imp_right fun hpos => ⟨hpos, hi.resolve_left (by omega)⟩
  · exact hframe a fun p q hp hpq h1q hq hXq => ha p q hpq (by omega) (hp.imp_right And.right) hXq

theorem execStuff_unwritten {j : Nat} (hlen : s.lenBytes ≤ 256) (hin : s.srcAddr + s.lenBytes ≤ s.bufSize)
    (h1 : 1 ≤ j) (hj : j < s.lenBytes) (hw : ∀ i, 1 ≤ i → i < j → memRead s.buf (s.srcAddr + i) ≠ none)
    (hn : memRead s.buf (s.srcAddr + j) = none) :
    execStuff s = .fault (.unwrittenRead (s.srcAddr + j)) := by
  rw [execStuff_inside hlen hin, stuffLoop_unwritten (by omega) h1 (by omega) hw hn, finish_error]

end

/-- Settles O33: the two checks, and the two ends of the loop over the scan. -/
theorem stuffWritesOffsets : Obligations.StuffWritesOffsets := by
  refine ⟨rfl, fun s X => ⟨execStuff_length, execStuff_range, fun hlen hin hX => ?_,
    fun hlen hin _ h1 hj hw hn => execStuff_unwritten hlen hin h1 hj hw hn⟩⟩
  obtain ⟨m, hm, hs⟩ := execStuff_stuffed hlen hin hX
  exact ⟨m, hm, hs.anchor, hs.frame⟩

/-- Settles O34: before the terminator every byte is a distance or a data byte; a byte with no sentinel after it is as
before. -/
theorem stuffedBufferIsAnOffsetChain : Obligations.StuffedBufferIsAnOffsetChain := by
  intro s X h2 hlen hin hX
  obtain ⟨m, hm, hs⟩ := execStuff_stuffed hlen hin hX
  refine ⟨s.endStore m, hm, fun hterm => ⟨?_, bytesAt m s.srcAddr, fun i hi => ?_,
    hs.hops hlen (by omega) hterm⟩, fun z _ hz hlast => ⟨?_, fun j hzj hj => ?_⟩⟩
  · rw [← hterm, ← hX _ (by omega) (by omega)]
    exact hs.unchanged fun _ j hij hj => by omega
  · obtain ⟨v, hv, hv0⟩ := hs.ne_zero hlen (by omega) hterm hX hi
    rw [bytesAt_of_some hv]
    exact ⟨hv, hv0⟩
  · rw [← hz]
    exact hs.unchanged fun _ => hlast
  · rw [← hX j (by omega) hj]
    exact hs.unchanged fun _ k hjk => hlast k (by omega)

end Sys2Proof.Machine
end

section
/-! SUPPORT. UNSTUFF and UNSTUFF.C (R92 to R96): both are one walk, from index 0 and from NEXT. -/

namespace Sys2Proof.Machine

/-! ### The walk -/

/-- `walk_tests`, for any two numbers of tests that are enough. -/
theorem walk_tests_eq {tests tests' base len : Nat} {next : Half} {m : Memory} (hlen : len ≤ 32768)
    (h : len + 1 ≤ tests + next.toNat) (h' : len + 1 ≤ tests' + next.toNat) :
    walk tests base len next m = walk tests' base len next m := by
  rw [← walk_tests hlen h tests', Nat.add_comm, walk_tests hlen h' tests]

/-- R92: NEXT only grows, and a walk that does not end at a zero chain value has left LEN behind. -/
theorem walk_end {tests base len : Nat} {next : Half} {m : Memory} {e : WalkEnd} (hlen : len ≤ 32768)
    (h : len + 1 ≤ tests + next.toNat) (he : walk tests base len next m = .ok e) :
    next.toNat ≤ e.next.toNat ∧ (e.term = true ∨ len ≤ e.next.toNat) := by
  induction tests generalizing next m with
  | zero =>
    cases he
    exact ⟨Nat.le_refl _, .inr (by dsimp only; omega)⟩
  | succ n ih =>
    by_cases hlt : next.toNat < len
    · cases hr : memRead m (base + next.toNat) with
      | none =>
        rw [walk_unwritten hlt hr] at he
        cases he
      | some t =>
        rw [walk_succ hlt hr] at he
        split at he
        case isTrue =>
          cases he
          exact ⟨Nat.le_refl _, .inl rfl⟩
        case isFalse ht =>
          have hpos := byte_pos ht
          have hnext := next_add_toNat (t := t) (show next.toNat < 32768 by omega)
          obtain ⟨hle, hend⟩ := ih (by omega) he
          exact ⟨by omega, hend⟩
    · rw [walk_past (by omega)] at he
      cases he
      exact ⟨Nat.le_refl _, .inr (by dsimp only; omega)⟩

/-- Settles O35: `walk_tests`, and the two ends of a walk told apart by `walk_frame` and `walk_end`. -/
theorem walkEndsWithinLen : Obligations.WalkEndsWithinLen := by
  intro s next m hmax hin
  have hlen : s.lenBytes ≤ 32768 := by omega
  refine ⟨fun tests ht => walk_tests_eq hlen (by omega) (by omega), fun e he => ?_⟩
  obtain ⟨-, -, -, hterm⟩ := walk_frame he
  obtain ⟨hle, hend⟩ := walk_end hlen (by omega) he
  exact ⟨⟨fun h => (hterm h).1, fun h => hend.resolve_right (by omega)⟩, hle⟩

/-- The position a walk starts from ends as 0x00. -/
theorem walk_start_zero {tests base len : Nat} {next : Half} {m : Memory} {e : WalkEnd} (hlt : next.toNat < len)
    (he : walk (tests + 1) base len next m = .ok e) : memRead e.buf (base + next.toNat) = some 0x00 := by
  cases hr : memRead m (base + next.toNat) with
  | none =>
    rw [walk_unwritten hlt hr] at he
    cases he
  | some t =>
    rw [walk_succ hlt hr] at he
    split at he
    · cases he
      exact memRead_memWrite_same _ _ _
    · exact walk_keeps_zero he (memRead_memWrite_same _ _ _)

/-- R95: a walk from a position that holds 0x00 "ends at once with TERM = 1 and nothing changed". -/
theorem walk_at_zero {tests base len : Nat} {next : Half} {m : Memory} (hw : Memory.wf m) (hlt : next.toNat < len)
    (hz : memRead m (base + next.toNat) = some 0x00) : walk (tests + 1) base len next m = .ok ⟨m, next, true⟩ := by
  rw [walk_succ hlt hz, if_pos rfl, memWrite_eq_self hw hz]

theorem memWrite_memWrite_same (m : Memory) (a : Nat) (v w : Byte) :
    memWrite (memWrite m a v) a w = memWrite m a w := by
  induction m with
  | nil => simp [memWrite]
  | cons c m ih =>
    obtain ⟨k, u⟩ := c
    rcases Nat.lt_trichotomy a k with hlt | rfl | hgt
    · simp [memWrite, hlt]
    · simp [memWrite]
    · simp [memWrite, hgt.not_gt, hgt.ne', ih]

/-! ### The commands -/

section

variable {s : State}

theorem execUnstuff_length (h : s.lenBytes = 0) : execUnstuff s = .next (s.raise .length) := if_pos h

theorem execUnstuff_range (h0 : s.lenBytes ≠ 0) (hout : s.bufSize < s.srcAddr + s.lenBytes) :
    execUnstuff s = .next (s.raise .range) :=
  (if_neg h0).trans (if_neg (by rw [rangeInside_iff]; omega))

theorem execUnstuffC_range (hout : s.bufSize < s.srcAddr + s.lenBytes) : execUnstuffC s = .next (s.raise .range) :=
  if_neg (by rw [rangeInside_iff]; omega)

theorem execUnstuffC_inside (hin : s.srcAddr + s.lenBytes ≤ s.bufSize) :
    execUnstuffC s = finish (s.walkFrom s.nextIndex s.buf) s.endWalk :=
  if_pos (rangeInside_iff.2 hin)

/-- UNSTUFF's first anchor is the first position of a walk from index 0; a first anchor that held 0x00 is written
twice (R94). -/
theorem execUnstuff_inside (hmax : s.bufSize ≤ 32768) (h0 : s.lenBytes ≠ 0)
    (hin : s.srcAddr + s.lenBytes ≤ s.bufSize) :
    execUnstuff s = finish (s.walkFrom 0 s.buf) s.endWalk := by
  have hlt : (0 : Half).toNat < s.lenBytes := Nat.pos_of_ne_zero h0
  rw [execUnstuff, if_neg h0, if_pos (rangeInside_iff.2 hin)]
  cases hr : memRead s.buf s.srcAddr with
  | none =>
    rw [load_of_none hr, State.walkFrom, walk_unwritten (base := s.srcAddr) hlt hr]
    rfl
  | some t =>
    rw [load_of_some hr]
    dsimp only
    congr 1
    rw [State.walkFrom, State.walkFrom, walk_succ (base := s.srcAddr) hlt hr]
    by_cases ht : t = 0x00
    · subst ht
      rw [if_pos rfl]
      refine (walk_succ hlt (memRead_memWrite_same _ _ _)).trans ?_
      rw [if_pos rfl]
      exact congrArg (fun m => Except.ok (WalkEnd.mk m 0 true)) (memWrite_memWrite_same _ _ _ _)
    · have hpos := byte_pos ht
      have hnext := next_add_toNat (next := 0) (t := t) (by decide)
      rw [if_neg ht]
      rw [zero_add] at hnext ⊢
      exact walk_tests_eq (by omega) (by omega) (by omega)

end

/-! ### Following the chain -/

theorem zextHalf_ofNat {e : Nat} (he : e < 65536) : zextHalf (BitVec.ofNat 16 e) = BitVec.ofNat 32 e := by
  rw [zextHalf_eq_ofNat, BitVec.toNat_ofNat, Nat.mod_eq_of_lt he]

theorem endWalk_of_past (s : State) (m : Memory) (n : Half) :
    s.endWalk ⟨m, n, false⟩ = { s with buf := m, next := zextHalf n, status := 0x00000000 } := by
  rw [← statusWord_ok_false]
  rfl

theorem endWalk_of_zero (s : State) (m : Memory) (n : Half) :
    s.endWalk ⟨m, n, true⟩ = { s with buf := m, next := zextHalf n, status := 0x00000100 } := by
  rw [← statusWord_ok_true]
  rfl

theorem restored_cons {s : State} {vs : List Nat} {m : Memory} (h : s.Restored vs m) (e : Nat) :
    s.Restored (e :: vs) (memWrite m (s.srcAddr + e) 0x00) := by
  obtain ⟨hzero, hframe⟩ := h
  refine ⟨fun p hp => ?_, fun a ha => ?_⟩
  · rw [memRead_memWrite]
    split
    · rfl
    · obtain rfl | hp := List.mem_cons.1 hp
      · exact absurd rfl ‹_›
      · exact hzero p hp
  · rw [memRead_memWrite_other _ _ _ (ha e List.mem_cons_self)]
    exact hframe a fun p hp => ha p (List.mem_cons_of_mem _ hp)

/-- R92: a command that is a walk over written bytes goes to the end of the hops, and one more test of the walk's
condition ends it there. -/
theorem followsChain_of_walkFrom {s : State} {i : Instr} {start : Half} (hlen : s.lenBytes ≤ 32768)
    (hi : exec i s = finish (s.walkFrom start s.buf) s.endWalk) : s.FollowsChain i start.toNat := by
  intro X vs e hops hX
  have hlt : e < 65536 := hops.end_lt start.isLt (by omega)
  obtain ⟨tests, m, hwalk, htests, -, hzero, hframe⟩ :=
    walk_hops (tests := s.lenBytes + 1) hops hlen start.isLt (by omega) hX
  rw [BitVec.ofNat_toNat, BitVec.setWidth_eq] at hwalk
  rw [State.walkFrom, hwalk] at hi
  have hnat : (BitVec.ofNat 16 e).toNat = e := by rw [BitVec.toNat_ofNat, Nat.mod_eq_of_lt hlt]
  have hfresh : memRead m (s.srcAddr + e) = memRead s.buf (s.srcAddr + e) :=
    hframe _ fun q hq => by have := hops.bounds.2 q hq; omega
  rw [← hfresh]
  refine ⟨fun hpast => ⟨m, ?_, hzero, hframe⟩, fun hin hz => ⟨_, ?_, restored_cons ⟨hzero, hframe⟩ e⟩,
    fun hin hn => ?_⟩
  · rw [hi, walk_past (by omega), finish_ok, endWalk_of_past, zextHalf_ofNat hlt]
  · obtain ⟨tests, rfl⟩ : ∃ n, tests = n + 1 := ⟨tests - 1, by omega⟩
    rw [hi, walk_succ (t := 0x00) (by omega) (by rw [hnat, hz]), if_pos rfl, hnat, finish_ok,
      endWalk_of_zero, zextHalf_ofNat hlt]
  · obtain ⟨tests, rfl⟩ : ∃ n, tests = n + 1 := ⟨tests - 1, by omega⟩
    rw [hi, walk_unwritten (by omega) (by rw [hnat, hn]), finish_error, hnat]

/-- Settles O36: the two checks, and the walk from index 0. -/
theorem unstuffFollowsChainFromFirstAnchor : Obligations.UnstuffFollowsChainFromFirstAnchor :=
  ⟨rfl, fun _ => ⟨execUnstuff_length, execUnstuff_range, fun hmax h0 hin =>
    followsChain_of_walkFrom (start := 0) (by omega) (execUnstuff_inside hmax h0 hin)⟩⟩

/-- Settles O37: the range check, and the walk from NEXT, which makes no iteration at or past LEN. -/
theorem unstuffCFollowsChainFromNext : Obligations.UnstuffCFollowsChainFromNext := by
  refine ⟨rfl, fun s => ⟨execUnstuffC_range, fun hmax hin =>
    followsChain_of_walkFrom (by omega) (execUnstuffC_inside hin), fun hs hin hpast => ?_⟩⟩
  refine (execUnstuffC_inside hin).trans ?_
  rw [State.walkFrom, walk_past hpast, finish_ok, endWalk_of_past, State.nextIndex, zextHalf_lowHalf hs.next_field]

/-! ### Incremental decode -/

/-- R96: a walk paused at LEN = k and taken up from NEXT with LEN = n is the walk with LEN = n. -/
theorem walk_resume {base k n : Nat} {next : Half} {m : Memory} {e : WalkEnd} (hkn : k ≤ n) (hn : n ≤ 32768)
    (hw : Memory.wf m) (he : walk (k + 1) base k next m = .ok e) :
    walk (n + 1) base n e.next e.buf = walk (n + 1) base n next m := by
  obtain ⟨-, hok⟩ := walk_pause (base := base) hkn hn (k + 1) (n + 1) next m (by omega) (by omega)
  obtain ⟨hzero, hpast⟩ := hok e he
  obtain ⟨hwf, -, -, hterm⟩ := walk_frame he
  cases ht : e.term with
  | true =>
    obtain ⟨hlt, hz⟩ := hterm ht
    rw [hzero ht, walk_at_zero (hwf hw) (by omega) hz, ← ht]
  | false =>
    obtain ⟨tests, htests, h⟩ := hpast ht
    rw [h]
    exact walk_tests_eq hn (by omega) htests

/-- LEN set to `n` between two commands. -/
def State.setLen (s : State) (n : Nat) : State := { s with len := BitVec.ofNat 32 n }

theorem setLen_lenBytes {s : State} {n : Nat} (hn : n < 2 ^ 16) : (s.setLen n).lenBytes = n :=
  (lowHalf_ofNat n).trans (Nat.mod_eq_of_lt hn)

section

variable {s : State} {n : Nat}

theorem setLen_inside (hmax : s.bufSize ≤ 32768) (hin : s.srcAddr + n ≤ s.bufSize) :
    (s.setLen n).lenBytes = n ∧ (s.setLen n).srcAddr + (s.setLen n).lenBytes ≤ (s.setLen n).bufSize := by
  have hlen : (s.setLen n).lenBytes = n := setLen_lenBytes (by omega)
  exact ⟨hlen, hlen.symm ▸ hin⟩

theorem exec_unstuff_setLen (hmax : s.bufSize ≤ 32768) (h1 : 1 ≤ n) (hin : s.srcAddr + n ≤ s.bufSize) :
    exec .unstuff (s.setLen n) = finish (walk (n + 1) s.srcAddr n 0 s.buf) (s.setLen n).endWalk := by
  obtain ⟨hlen, hin'⟩ := setLen_inside hmax hin
  refine (execUnstuff_inside (s := s.setLen n) hmax (by omega) hin').trans ?_
  rw [State.walkFrom, hlen]
  rfl

theorem exec_unstuffC_setLen (hmax : s.bufSize ≤ 32768) (hin : s.srcAddr + n ≤ s.bufSize) :
    exec .unstuffC (s.setLen n) = finish (walk (n + 1) s.srcAddr n s.nextIndex s.buf) (s.setLen n).endWalk := by
  obtain ⟨hlen, hin'⟩ := setLen_inside hmax hin
  refine (execUnstuffC_inside hin').trans ?_
  rw [State.walkFrom, hlen]
  rfl

end

theorem endWalk_nextIndex (s : State) (e : WalkEnd) : (s.endWalk e).nextIndex = e.next := lowHalf_zextHalf e.next

/-- Settles O38: the second command takes up the first one's walk, and a walk that faults under LEN = k does so under
LEN = n. -/
theorem incrementalUnstuffIsExact : Obligations.IncrementalUnstuffIsExact := by
  intro s k n hs h1 hkn hin
  have hmax : s.bufSize ≤ 32768 := hs.bufSize_max
  have hpart := exec_unstuff_setLen hmax h1 (show s.srcAddr + k ≤ s.bufSize by omega)
  have hwhole := exec_unstuff_setLen hmax (h1.trans hkn) hin
  refine ⟨fun t ht => ?_, fun f hf => ?_⟩
  · obtain ⟨e, he, rfl⟩ := finish_eq_next.1 (hpart.symm.trans ht)
    have hrest := exec_unstuffC_setLen (s := (s.setLen k).endWalk e) hmax hin
    rw [← walk_resume hkn (by omega) hs.buf_wf he] at hwhole
    rw [endWalk_nextIndex] at hrest
    exact hrest.trans hwhole.symm
  · obtain ⟨herror, -⟩ :=
      walk_pause (base := s.srcAddr) hkn (by omega) (k + 1) (n + 1) 0 s.buf (by omega) (by omega)
    rw [herror f (finish_eq_fault.1 (hpart.symm.trans hf)), finish_error] at hwhole
    exact hwhole

end Sys2Proof.Machine
end

section
/-! SUPPORT. The round trip (R97): UNSTUFF follows the chain that STUFF leaves. -/

namespace Sys2Proof.Machine

/-- `z` is the largest index below `len` at which `X` is 0x00. -/
structure LastSentinel (X : Nat → Byte) (len z : Nat) : Prop where
  lt : z < len
  zero : X z = 0x00
  after : ∀ j, z < j → j < len → X j ≠ 0x00

theorem exists_lastSentinel {X : Nat → Byte} {len : Nat} (hpos : 0 < len) (h0 : X 0 = 0x00) :
    ∃ z, LastSentinel X len z := by
  have hle := Nat.findGreatest_le (P := fun i => X i = 0x00) (len - 1)
  exact ⟨Nat.findGreatest (fun i => X i = 0x00) (len - 1), by omega,
    Nat.findGreatest_spec (P := fun i => X i = 0x00) (Nat.zero_le _) h0,
    fun j hzj hj => Nat.findGreatest_is_greatest hzj (by omega)⟩

/-- Every byte that STUFF changed is an anchor before the last sentinel: a memory with those anchors and that sentinel
set to 0x00 again reads as the one before STUFF. -/
theorem Stuffed.memRead_restored {X : Nat → Byte} {base len z : Nat} {m m' m'' : Memory} {vs : List Nat}
    (h : Stuffed X base len m m') (hX : ∀ i, i < len → memRead m (base + i) = some (X i)) (h0 : X 0 = 0x00)
    (hz : LastSentinel X len z) (hvs : ∀ i, i ∈ vs ↔ i < z ∧ (i = 0 ∨ X i = 0x00))
    (hzero : ∀ p ∈ z :: vs, memRead m'' (base + p) = some 0x00)
    (hframe : ∀ a, (∀ p ∈ z :: vs, a ≠ base + p) → memRead m'' a = memRead m' a) (a : Nat) :
    memRead m'' a = memRead m a := by
  have hzl := hz.lt
  by_cases ha : ∃ p ∈ z :: vs, a = base + p
  · obtain ⟨p, hp, rfl⟩ := ha
    have hsentinel : p < len ∧ X p = 0x00 := by
      obtain rfl | hp := List.mem_cons.1 hp
      · exact ⟨hz.lt, hz.zero⟩
      · obtain ⟨hpz, rfl | hXp⟩ := (hvs p).1 hp
        · exact ⟨by omega, h0⟩
        · exact ⟨by omega, hXp⟩
    obtain ⟨hpl, hXp⟩ := hsentinel
    rw [hzero p hp, hX p hpl, hXp]
  · push Not at ha
    refine (hframe a ha).trans (h.frame a fun i j hij hj hi hXj => ha i ?_)
    have hiz : i < z := by
      by_contra hzi
      exact hz.after j (by omega) hj hXj
    exact List.mem_cons_of_mem _ ((hvs i).2 ⟨hiz, hi⟩)

section

variable {s : State} {X : Nat → Byte} {m : Memory}

/-- UNSTUFF follows the chain that STUFF leaves to the last sentinel. -/
theorem exec_unstuff_endStore {z : Nat} (hs : s.Inv) (ht : (s.endStore m).Inv) (hlen : s.lenBytes ≤ 256)
    (hin : s.srcAddr + s.lenBytes ≤ s.bufSize)
    (hX : ∀ i, i < s.lenBytes → memRead s.buf (s.srcAddr + i) = some (X i)) (h0 : X 0 = 0x00)
    (hz : LastSentinel X s.lenBytes z) (hst : Stuffed X s.srcAddr s.lenBytes s.buf m) :
    exec .unstuff (s.endStore m) = .next { s with next := BitVec.ofNat 32 z, status := 0x00000100 } := by
  have hzl := hz.lt
  obtain ⟨vs, hops, hvs⟩ := hst.hops hlen hzl hz.zero
  have hfollows := followsChain_of_walkFrom (s := s.endStore m) (i := .unstuff) (start := 0)
    (hlen.trans (by decide)) (execUnstuff_inside ht.bufSize_max (Nat.ne_of_gt (Nat.zero_lt_of_lt hzl)) hin)
  have hwritten : ∀ p, p < s.lenBytes → memRead m (s.srcAddr + p) ≠ none := fun p hp =>
    hst.written (by rw [hX p hp]; exact Option.some_ne_none _)
  have hend : memRead m (s.srcAddr + z) = some 0x00 := by
    rw [hst.unchanged fun _ => hz.after, hX z hzl, hz.zero]
  obtain ⟨-, hterm, -⟩ := hfollows _ vs z hops fun p hp =>
    memRead_bytesAt (hwritten p (by have := (hvs p).1 hp; omega))
  obtain ⟨m', hu, hzero, hframe⟩ := hterm hzl hend
  have hm' : m' = s.buf :=
    memory_ext ((exec_next hu).inv ht).buf_wf hs.buf_wf (hst.memRead_restored hX h0 hz hvs hzero hframe)
  rw [hu, hm']
  rfl

/-- STUFF leaves no byte of the buffer unwritten, so UNSTUFF meets no model fault. -/
theorem exec_unstuff_endStore_next (hs : s.Inv) (hpos : 0 < s.lenBytes) (hin : s.srcAddr + s.lenBytes ≤ s.bufSize)
    (hX : ∀ i, i < s.lenBytes → memRead s.buf (s.srcAddr + i) = some (X i))
    (hst : Stuffed X s.srcAddr s.lenBytes s.buf m) :
    ∃ u, exec .unstuff (s.endStore m) = .next u ∧ memRead u.buf s.srcAddr = some 0x00 := by
  have hmax : s.bufSize ≤ 32768 := hs.bufSize_max
  have hex := execUnstuff_inside (s := s.endStore m) hmax hpos.ne' hin
  cases hw : walk (s.lenBytes + 1) s.srcAddr s.lenBytes 0 m with
  | error f =>
    obtain ⟨j, -, hj, -, hn⟩ := walk_error (hlen := by omega) hw
    exact absurd hn (hst.written (by rw [hX j hj]; exact Option.some_ne_none _))
  | ok e =>
    exact ⟨_, hex.trans (congrArg (finish · _) hw), walk_start_zero (next := 0) hpos hw⟩

end

/-- Settles O39: the chain that STUFF leaves brings UNSTUFF to the last sentinel; without a sentinel at an index >= 1
STUFF changes nothing. -/
theorem stuffUnstuffRoundTrip : Obligations.StuffUnstuffRoundTrip := by
  intro s xs hs h1 h256 hlen hin hx
  rw [← hlen] at h1 h256 hin ⊢
  have hX : ∀ i, i < s.lenBytes → memRead s.buf (s.srcAddr + i) = some (bytesAt s.buf s.srcAddr i) := fun i hi =>
    memRead_bytesAt (by rw [hx i (by omega), List.getElem?_eq_getElem (by omega)]; exact Option.some_ne_none _)
  have hxs : ∀ i, i < s.lenBytes → xs[i]? = some (bytesAt s.buf s.srcAddr i) := fun i hi =>
    (hx i (by omega)).symm.trans (hX i hi)
  obtain ⟨m, hm, hst⟩ := execStuff_stuffed h256 hin fun i _ => hX i
  have ht : (s.endStore m).Inv := (exec_next (i := .stuff) hm).inv hs
  refine ⟨s.endStore m, hm, fun h0 => ?_, fun _ => ?_⟩
  · rw [hxs 0 h1] at h0
    obtain ⟨z, hz⟩ := exists_lastSentinel h1 (Option.some.inj h0)
    refine ⟨z, hz.lt, by rw [hxs z hz.lt, hz.zero], fun j hzj hj hj0 => ?_,
      exec_unstuff_endStore hs ht h256 hin hX (Option.some.inj h0) hz hst⟩
    rw [hxs j hj] at hj0
    exact hz.after j hzj hj (Option.some.inj hj0)
  · obtain ⟨u, hu, hu0⟩ := exec_unstuff_endStore_next hs h1 hin hX hst
    refine ⟨u, hu, hu0, fun hnone => memory_ext ht.buf_wf hs.buf_wf fun a => hst.frame a fun i j hij hj _ hj0 => ?_⟩
    exact absurd ((hxs j hj).trans (congrArg some hj0)) (hnone j (by omega))

end Sys2Proof.Machine
end

section
/-! SUPPORT. The HEX unit (R110 to R114): digits, nibbles as arithmetic, and what HEX.ENC and HEX.DEC do once their
ranges are inside BUF and apart. -/

namespace Sys2Proof.Machine

/-! ### Digits -/

theorem hexDigit_toNat (v : Nibble) :
    (hexDigit v).toNat = if v.toNat ≤ 9 then 0x30 + v.toNat else 0x41 + (v.toNat - 10) := by
  unfold hexDigit
  split <;> rw [BitVec.toNat_ofNat] <;> omega

theorem nibble_ofNat_eq_iff {n : Nat} {v : Nibble} (hn : n < 16) : BitVec.ofNat 4 n = v ↔ n = v.toNat := by
  rw [BitVec.toNat_eq, BitVec.toNat_ofNat, Nat.mod_eq_of_lt hn]

theorem hexVal_eq_some_iff {c : Byte} {v : Nibble} : hexVal c = some v ↔
    (v.toNat ≤ 9 ∧ c.toNat = 0x30 + v.toNat) ∨
    (10 ≤ v.toNat ∧ (c.toNat = 0x41 + (v.toNat - 10) ∨ c.toNat = 0x61 + (v.toNat - 10))) := by
  have hv : v.toNat < 16 := v.isLt
  unfold hexVal
  split
  · rw [Option.some_inj, nibble_ofNat_eq_iff (by omega)]
    omega
  split
  · rw [Option.some_inj, nibble_ofNat_eq_iff (by omega)]
    omega
  split
  · rw [Option.some_inj, nibble_ofNat_eq_iff (by omega)]
    omega
  · simp only [reduceCtorEq, false_iff]
    omega

/-- Settles O40: `digit` by its two branches, `hexval` by the rows of its table. -/
theorem hexDigitsAreAscii : Obligations.HexDigitsAreAscii := ⟨hexDigit_toNat, fun _ _ => hexVal_eq_some_iff⟩

theorem upperHex_eq_hexDigit {c : Byte} {v : Nibble} (h : hexVal c = some v) : upperHex c = hexDigit v := by
  rw [hexVal_eq_some_iff] at h
  apply BitVec.eq_of_toNat_eq
  rw [hexDigit_toNat]
  unfold upperHex
  split
  · rw [BitVec.toNat_sub_of_le (by bv_omega)]
    change c.toNat - 0x20 = _
    split <;> omega
  · split <;> omega

/-! ### Nibbles -/

theorem highNibble_eq_div (b : Byte) : highNibble b = BitVec.ofNat 4 (b.toNat / 16) :=
  congrArg (BitVec.ofNat 4) (Nat.shiftRight_eq_div_pow b.toNat 4)

theorem lowNibble_eq_mod (b : Byte) : lowNibble b = BitVec.ofNat 4 (b.toNat % 16) := by
  apply BitVec.eq_of_toNat_eq
  simp [lowNibble]

theorem joinNibbles_eq_ofNat (hi lo : Nibble) : joinNibbles hi lo = BitVec.ofNat 8 (16 * hi.toNat + lo.toNat) := by
  have hor : 16 * hi.toNat + lo.toNat = hi.toNat <<< 4 ||| lo.toNat := by
    rw [← Nat.shiftLeft_add_eq_or_of_lt lo.isLt, Nat.shiftLeft_eq, Nat.mul_comm]
  apply BitVec.eq_of_toNat_eq
  rw [hor, BitVec.toNat_ofNat, Nat.or_mod_two_pow]
  simp [joinNibbles, Nat.shiftLeft_eq]

/-! ### The commands -/

theorem overlap_double_right {a b n : Nat} :
    overlap a n b (2 * n) = true ↔ 0 < n ∧ a < b + 2 * n ∧ b < a + n := by
  rw [overlap_iff]
  omega

theorem overlap_double_left {a b n : Nat} :
    overlap a (2 * n) b n = true ↔ 0 < n ∧ a < b + n ∧ b < a + 2 * n := by
  rw [overlap_iff]
  omega

theorem overlap_iff_shared {a na b nb : Nat} :
    overlap a na b nb = true ↔ ∃ x, a ≤ x ∧ x < a + na ∧ b ≤ x ∧ x < b + nb := by
  rw [overlap_iff]
  constructor
  · intro h
    exact ⟨max a b, by omega⟩
  · rintro ⟨x, hx⟩
    omega

theorem rangesInside_iff {s : State} {a k b n : Nat} :
    (s.rangeInside a k && s.rangeInside b n) = true ↔ a + k ≤ s.bufSize ∧ b + n ≤ s.bufSize := by
  rw [Bool.and_eq_true, rangeInside_iff, rangeInside_iff]

/-- R112, R113: `nsrc` bytes at SRC and `ndst` bytes at DST are inside BUF and do not overlap. -/
structure State.Apart (s : State) (nsrc ndst : Nat) : Prop where
  src_inside : s.srcAddr + nsrc ≤ s.bufSize
  dst_inside : s.dstAddr + ndst ≤ s.bufSize
  no_overlap : overlap s.srcAddr nsrc s.dstAddr ndst = false

theorem State.Apart.disjoint {s : State} {nsrc ndst : Nat} (h : s.Apart nsrc ndst) (hsrc : 0 < nsrc)
    (hdst : 0 < ndst) : s.srcAddr + nsrc ≤ s.dstAddr ∨ s.dstAddr + ndst ≤ s.srcAddr := by
  have hno := mt overlap_iff.2 (Bool.eq_false_iff.1 h.no_overlap)
  omega

section

variable {s : State}

theorem execHexEnc_range (hout : s.bufSize < s.srcAddr + s.lenBytes ∨ s.bufSize < s.dstAddr + 2 * s.lenBytes) :
    execHexEnc s = .next (s.raise .range) :=
  if_neg (by rw [rangesInside_iff]; omega)

theorem execHexEnc_overlap (hsrc : s.srcAddr + s.lenBytes ≤ s.bufSize)
    (hdst : s.dstAddr + 2 * s.lenBytes ≤ s.bufSize)
    (ho : overlap s.srcAddr s.lenBytes s.dstAddr (2 * s.lenBytes) = true) :
    execHexEnc s = .next (s.raise .overlap) :=
  (if_pos (rangesInside_iff.2 ⟨hsrc, hdst⟩)).trans (if_pos ho)

theorem execHexEnc_apart (h : s.Apart s.lenBytes (2 * s.lenBytes)) :
    execHexEnc s = finish (hexEncLoop s.lenBytes s.srcAddr s.dstAddr s.buf) s.endStore :=
  (if_pos (rangesInside_iff.2 ⟨h.src_inside, h.dst_inside⟩)).trans (if_neg (Bool.eq_false_iff.1 h.no_overlap))

theorem execHexEnc_holds {xs : List Byte} (h : s.Apart s.lenBytes (2 * s.lenBytes)) (hlen : xs.length = s.lenBytes)
    (hx : s.holds s.srcAddr xs) :
    ∃ m, execHexEnc s = .next (s.endStore m) ∧
      (∀ i b, xs[i]? = some b → memRead m (s.dstAddr + 2 * i) = some (hexDigit (highNibble b)) ∧
        memRead m (s.dstAddr + 2 * i + 1) = some (hexDigit (lowNibble b))) ∧
      ∀ a, a < s.dstAddr ∨ s.dstAddr + 2 * s.lenBytes ≤ a → memRead m a = memRead s.buf a := by
  have hdisj := h.disjoint
  obtain ⟨m, hm, hdigits, hframe⟩ := hexEncLoop_ok (dst := s.dstAddr) hx (by omega)
  rw [hlen] at hm hframe
  exact ⟨m, by rw [execHexEnc_apart h, hm, finish_ok], hdigits, hframe⟩

theorem execHexEnc_unwritten {j : Nat} (h : s.Apart s.lenBytes (2 * s.lenBytes)) (hj : j < s.lenBytes)
    (hw : ∀ i, i < j → memRead s.buf (s.srcAddr + i) ≠ none) (hn : memRead s.buf (s.srcAddr + j) = none) :
    execHexEnc s = .fault (.unwrittenRead (s.srcAddr + j)) := by
  rw [execHexEnc_apart h, hexEncLoop_unwritten hj (h.disjoint (by omega) (by omega)) hw hn, finish_error]

theorem execHexDec_range (hout : s.bufSize < s.srcAddr + 2 * s.lenBytes ∨ s.bufSize < s.dstAddr + s.lenBytes) :
    execHexDec s = .next (s.raise .range) :=
  if_neg (by rw [rangesInside_iff]; omega)

theorem execHexDec_overlap (hsrc : s.srcAddr + 2 * s.lenBytes ≤ s.bufSize)
    (hdst : s.dstAddr + s.lenBytes ≤ s.bufSize)
    (ho : overlap s.srcAddr (2 * s.lenBytes) s.dstAddr s.lenBytes = true) :
    execHexDec s = .next (s.raise .overlap) :=
  (if_pos (rangesInside_iff.2 ⟨hsrc, hdst⟩)).trans (if_pos ho)

theorem execHexDec_apart (h : s.Apart (2 * s.lenBytes) s.lenBytes) :
    execHexDec s = finish (hexValues (2 * s.lenBytes) s.srcAddr s.buf) s.endHexDec :=
  (if_pos (rangesInside_iff.2 ⟨h.src_inside, h.dst_inside⟩)).trans (if_neg (Bool.eq_false_iff.1 h.no_overlap))

theorem execHexDec_valid {V : Nat → Nibble} (h : s.Apart (2 * s.lenBytes) s.lenBytes)
    (hV : ∀ j, j < 2 * s.lenBytes → ∃ c, memRead s.buf (s.srcAddr + j) = some c ∧ hexVal c = some (V j)) :
    ∃ m, execHexDec s = .next (s.endStore m) ∧
      (∀ i, i < s.lenBytes → memRead m (s.dstAddr + i) = some (joinNibbles (V (2 * i)) (V (2 * i + 1)))) ∧
      ∀ a, a < s.dstAddr ∨ s.dstAddr + s.lenBytes ≤ a → memRead m a = memRead s.buf a :=
  ⟨_, by rw [execHexDec_apart h, hexValues_ok V hV, finish_ok]; rfl, hexStore_spec s.lenBytes V s.dstAddr s.buf⟩

theorem execHexDec_invalid {j : Nat} {c : Byte} (h : s.Apart (2 * s.lenBytes) s.lenBytes) (hj : j < 2 * s.lenBytes)
    (hb : ∀ i, i < j → ∃ c v, memRead s.buf (s.srcAddr + i) = some c ∧ hexVal c = some v)
    (hc : memRead s.buf (s.srcAddr + j) = some c) (hv : hexVal c = none) :
    execHexDec s = .next (s.raise .illegalHex) := by
  rw [execHexDec_apart h, hexValues_invalid hj hb hc hv, finish_ok]
  rfl

theorem execHexDec_unwritten {j : Nat} (h : s.Apart (2 * s.lenBytes) s.lenBytes) (hj : j < 2 * s.lenBytes)
    (hb : ∀ i, i < j → ∃ c v, memRead s.buf (s.srcAddr + i) = some c ∧ hexVal c = some v)
    (hn : memRead s.buf (s.srcAddr + j) = none) :
    execHexDec s = .fault (.unwrittenRead (s.srcAddr + j)) := by
  rw [execHexDec_apart h, hexValues_unwritten hj hb hn, finish_error]

end

/-- Settles O41: the two checks, and the two ends of the loop over ranges that are apart. -/
theorem hexEncResult : Obligations.HexEncResult := by
  refine ⟨rfl, fun s => ⟨execHexEnc_range, fun hsrc hdst => ⟨fun ho => ?_, fun hno => ?_⟩⟩⟩
  · exact execHexEnc_overlap hsrc hdst (overlap_double_right.2 ho)
  · have h : s.Apart s.lenBytes (2 * s.lenBytes) := ⟨hsrc, hdst, Bool.eq_false_iff.2 (mt overlap_double_right.1 hno)⟩
    refine ⟨fun xs hlen hx => ?_, fun j hj hw hn => execHexEnc_unwritten h hj hw hn⟩
    obtain ⟨m, hm, hdigits, hframe⟩ := execHexEnc_holds h hlen hx
    refine ⟨m, hm, fun i b hb => ?_, hframe⟩
    rw [← highNibble_eq_div, ← lowNibble_eq_mod]
    exact hdigits i b hb

/-- Settles O42: the two checks, and the three ends of the scan over ranges that are apart. -/
theorem hexDecResult : Obligations.HexDecResult := by
  refine ⟨rfl, fun s => ⟨execHexDec_range, fun hsrc hdst => ⟨fun ho => ?_, fun hno => ?_⟩⟩⟩
  · exact execHexDec_overlap hsrc hdst (overlap_double_left.2 ho)
  · have h : s.Apart (2 * s.lenBytes) s.lenBytes := ⟨hsrc, hdst, Bool.eq_false_iff.2 (mt overlap_double_left.1 hno)⟩
    refine ⟨fun V hV => ?_, fun j hj hb => ⟨fun c => execHexDec_invalid h hj hb, execHexDec_unwritten h hj hb⟩⟩
    obtain ⟨m, hm, hbytes, hframe⟩ := execHexDec_valid h hV
    refine ⟨m, hm, fun i hi => ?_, hframe⟩
    rw [← joinNibbles_eq_ofNat]
    exact hbytes i hi

/-- Settles O43: the larger of the two bases is shared when any address is, and OVERLAP comes before the loops. -/
theorem overlapMeansASharedAddress : Obligations.OverlapMeansASharedAddress :=
  ⟨fun _ _ _ _ => overlap_iff_shared, fun _ => ⟨execHexEnc_overlap, execHexDec_overlap⟩⟩

end Sys2Proof.Machine
end

section
/-! SUPPORT. The round trips (R115): both commands relate the same nibbles, read as bytes and as digits. -/

namespace Sys2Proof.Machine

/-! ### Bytes and digits as nibbles -/

/-- The nibbles of `xs` in order, high nibble first. -/
def nibbleAt (xs : List Byte) (j : Nat) : Nibble :=
  if j % 2 = 0 then highNibble (xs.getD (j / 2) 0x00) else lowNibble (xs.getD (j / 2) 0x00)

theorem joinNibbles_nibbleAt {xs : List Byte} {i : Nat} (hi : i < xs.length) :
    some (joinNibbles (nibbleAt xs (2 * i)) (nibbleAt xs (2 * i + 1))) = xs[i]? := by
  have hhi : nibbleAt xs (2 * i) = highNibble (xs.getD i 0x00) := by
    rw [nibbleAt, if_pos (by omega), show 2 * i / 2 = i by omega]
  have hlo : nibbleAt xs (2 * i + 1) = lowNibble (xs.getD i 0x00) := by
    rw [nibbleAt, if_neg (by omega), show (2 * i + 1) / 2 = i by omega]
  rw [hhi, hlo, joinNibbles_split, List.getD_eq_getElem _ _ hi, List.getElem?_eq_getElem hi]

theorem exists_hexValues {cs : List Byte} (h : ∀ c ∈ cs, hexVal c ≠ none) :
    ∃ V : Nat → Nibble, ∀ j c, cs[j]? = some c → hexVal c = some (V j) := by
  refine ⟨fun j => (cs[j]?.bind hexVal).getD 0, fun j c hc => ?_⟩
  obtain ⟨v, hv⟩ := Option.ne_none_iff_exists'.1 (h c (List.mem_of_getElem? hc))
  simp [hc, hv]

/-- The bytes whose nibbles are `V`, high nibble first. -/
def bytesOf (V : Nat → Nibble) (n : Nat) : List Byte :=
  (List.range n).map fun i => joinNibbles (V (2 * i)) (V (2 * i + 1))

/-- HEX.ENC, nibble by nibble: the digit of every nibble of the source, in order. -/
theorem execHexEnc_nibbles {s : State} {V : Nat → Nibble} (h : s.Apart s.lenBytes (2 * s.lenBytes))
    (hV : ∀ i, i < s.lenBytes → memRead s.buf (s.srcAddr + i) = some (joinNibbles (V (2 * i)) (V (2 * i + 1)))) :
    ∃ m, execHexEnc s = .next (s.endStore m) ∧
      ∀ j, j < 2 * s.lenBytes → memRead m (s.dstAddr + j) = some (hexDigit (V j)) := by
  have hbytes : ∀ i, i < s.lenBytes → (bytesOf V s.lenBytes)[i]? = some (joinNibbles (V (2 * i)) (V (2 * i + 1))) :=
    fun i hi => by simp [bytesOf, hi]
  have hlen : (bytesOf V s.lenBytes).length = s.lenBytes := by simp [bytesOf]
  obtain ⟨m, hm, hdigits, -⟩ := execHexEnc_holds h hlen fun i hi => by
    rw [hbytes i (by omega), hV i (by omega)]
  refine ⟨m, hm, fun j hj => ?_⟩
  obtain ⟨hhi, hlo⟩ := hdigits (j / 2) _ (hbytes (j / 2) (by omega))
  rw [highNibble_join] at hhi
  rw [lowNibble_join] at hlo
  obtain hpar | hpar := Nat.mod_two_eq_zero_or_one j
  · rwa [show 2 * (j / 2) = j by omega] at hhi
  · rwa [Nat.add_assoc, show 2 * (j / 2) + 1 = j by omega] at hlo

/-! ### The second command -/

/-- R115: between the two commands DST becomes SRC and `e` becomes DST. -/
def State.retarget (s : State) (e : Nat) : State := { s with src := s.dst, dst := BitVec.ofNat 32 e }

theorem retarget_dstAddr {s : State} {e : Nat} (he : e < 2 ^ 16) : (s.retarget e).dstAddr = e :=
  (lowHalf_ofNat e).trans (Nat.mod_eq_of_lt he)

theorem retarget_apart {s : State} {e nsrc ndst : Nat} (he : e < 2 ^ 16) (hsrc : s.dstAddr + nsrc ≤ s.bufSize)
    (hdst : e + ndst ≤ s.bufSize) (hno : overlap s.dstAddr nsrc e ndst = false) : (s.retarget e).Apart nsrc ndst :=
  ⟨hsrc, (retarget_dstAddr he).symm ▸ hdst, (retarget_dstAddr he).symm ▸ hno⟩

section

variable {s : State} {e : Nat}

/-- HEX.ENC's digits are valid, and their values are the nibbles of the source. -/
theorem execHexEnc_then_execHexDec {B : List Byte} (h : s.Apart s.lenBytes (2 * s.lenBytes))
    (h' : (s.retarget e).Apart (2 * s.lenBytes) s.lenBytes) (hB : B.length = s.lenBytes)
    (hx : s.holds s.srcAddr B) :
    ∃ m m', execHexEnc s = .next (s.endStore m) ∧
      execHexDec ((s.endStore m).retarget e) = .next (((s.endStore m).retarget e).endStore m') ∧
      (((s.endStore m).retarget e).endStore m').holds (s.retarget e).dstAddr B := by
  obtain ⟨m, hm, hdigits⟩ := execHexEnc_nibbles (V := nibbleAt B) h fun i hi =>
    (hx i (hB.symm ▸ hi)).trans (joinNibbles_nibbleAt (hB.symm ▸ hi)).symm
  obtain ⟨m', hm', hbytes, -⟩ := execHexDec_valid (s := (s.endStore m).retarget e) (V := nibbleAt B)
    ⟨h'.src_inside, h'.dst_inside, h'.no_overlap⟩ fun j hj => ⟨_, hdigits j hj, hexVal_hexDigit _⟩
  exact ⟨m, m', hm, hm', fun i hi => (hbytes i (hB ▸ hi)).trans (joinNibbles_nibbleAt hi)⟩

/-- HEX.DEC's bytes have the values of the digits as their nibbles, and a value's digit is the uppercase one. -/
theorem execHexDec_then_execHexEnc {S : List Byte} (h : s.Apart (2 * s.lenBytes) s.lenBytes)
    (h' : (s.retarget e).Apart s.lenBytes (2 * s.lenBytes)) (hS : S.length = 2 * s.lenBytes)
    (hx : s.holds s.srcAddr S) (hvalid : ∀ c ∈ S, hexVal c ≠ none) :
    ∃ m m', execHexDec s = .next (s.endStore m) ∧
      execHexEnc ((s.endStore m).retarget e) = .next (((s.endStore m).retarget e).endStore m') ∧
      (((s.endStore m).retarget e).endStore m').holds (s.retarget e).dstAddr (S.map upperHex) := by
  obtain ⟨V, hV⟩ := exists_hexValues hvalid
  have hget : ∀ j (hj : j < S.length), S[j]? = some S[j] := fun j hj => List.getElem?_eq_getElem hj
  obtain ⟨m, hm, hbytes, -⟩ := execHexDec_valid (V := V) h fun j hj =>
    ⟨_, (hx j (by omega)).trans (hget j (by omega)), hV j _ (hget j (by omega))⟩
  obtain ⟨m', hm', hdigits⟩ := execHexEnc_nibbles (s := (s.endStore m).retarget e) (V := V)
    ⟨h'.src_inside, h'.dst_inside, h'.no_overlap⟩ hbytes
  refine ⟨m, m', hm, hm', fun j hj => ?_⟩
  rw [List.length_map] at hj
  rw [List.getElem?_map, hget j hj, Option.map_some, upperHex_eq_hexDigit (hV j _ (hget j hj))]
  exact hdigits j (hS ▸ hj)

end

/-- Settles O44: both commands move nibbles, which a byte holds in pairs and a digit one by one. -/
theorem hexRoundTrips : Obligations.HexRoundTrips := by
  intro s n e hs hn
  subst hn
  have hmax : s.bufSize ≤ 32768 := hs.bufSize_max
  constructor
  · intro B hB hx hsrc hdst he hno hno'
    have he16 : e < 2 ^ 16 := by omega
    obtain ⟨m, m', hm, hm', hB'⟩ :=
      execHexEnc_then_execHexDec ⟨hsrc, hdst, hno⟩ (retarget_apart he16 hdst he hno') hB hx
    exact ⟨_, _, hm, hm', rfl, retarget_dstAddr (s := s) he16 ▸ hB'⟩
  · intro S hS hx hvalid hsrc hdst he hno hno'
    have he16 : e < 2 ^ 16 := by omega
    obtain ⟨m, m', hm, hm', hS'⟩ :=
      execHexDec_then_execHexEnc ⟨hsrc, hdst, hno⟩ (retarget_apart he16 hdst he hno') hS hx hvalid
    exact ⟨_, _, hm, hm', rfl, retarget_dstAddr (s := s) he16 ▸ hS'⟩

end Sys2Proof.Machine
end

section
/-! SUPPORT. The errors of a command (R132, R133): a command that fails ends in `State.raise`, and each check that
fails, those before it having passed, decides which error that is. -/

namespace Sys2Proof.Machine

/-! ### A failed command -/

/-- Of the ends a command can come to, only `State.raise` leaves an ERRCODE other than OK. -/
theorem CommandEnd.exists_eq_raise {s t : State} {i : Instr} (h : CommandEnd s i t) (ht : t.errcode ≠ 0) :
    ∃ e, t = s.raise e := by
  cases h with
  | raised e => exact ⟨e, rfl⟩
  | accumulated => exact absurd (succeed_errcode _ _) ht
  | stored => exact absurd (succeed_errcode _ _) ht
  | walked => exact absurd (succeed_errcode _ _) ht

theorem runCommand_exists_eq_raise {w : Word} {s t : State} (h : runCommand w s = .next t) (ht : t.errcode ≠ 0) :
    ∃ e, t = s.raise e := by
  cases hd : decode w with
  | ok i => exact (exec_next ((runCommand_ok hd s).symm.trans h)).exists_eq_raise ht
  | error _ =>
    cases (runCommand_error hd s).symm.trans h
    exact ⟨.illegalCmd, rfl⟩

/-- Settles O45: the step of a CMD write that fails is `State.raise` after CMD is set, and `raise` writes STATUS only. -/
theorem failedCommandChangesOnlyStatus : Obligations.FailedCommandChangesOnlyStatus := by
  intro s t w rest hin hs ht
  obtain ⟨e, rfl⟩ := runCommand_exists_eq_raise ((step_cmd hin).symm.trans hs) ht
  exact ⟨rfl, raise_term _ e⟩

/-! ### The order of the checks -/

section

variable {s : State} {i : Instr}

theorem exec_of_lengthFails (h : LengthFails s i) : exec i s = .next (s.raise .length) := by
  cases i with
  | stuff => exact execStuff_length h
  | unstuff => exact execUnstuff_length h
  | crcClr | crcB | crcBuf | unstuffC | hexEnc | hexDec => exact h.elim

theorem exec_of_rangeFails (hlen : ¬LengthFails s i) (h : RangeFails s i) : exec i s = .next (s.raise .range) := by
  cases i with
  | crcClr | crcB => exact h.elim
  | crcBuf => exact execCrcBuf_range h
  | stuff => exact execStuff_range (Nat.not_lt.1 hlen) h
  | unstuff => exact execUnstuff_range hlen h
  | unstuffC => exact execUnstuffC_range h
  | hexEnc => exact execHexEnc_range h
  | hexDec => exact execHexDec_range h

/-- No command that checks for overlap checks LEN first. -/
theorem exec_of_overlapFails (hrange : ¬RangeFails s i) (h : OverlapFails s i) :
    exec i s = .next (s.raise .overlap) := by
  cases i with
  | crcClr | crcB | crcBuf | stuff | unstuff | unstuffC => exact h.elim
  | hexEnc =>
    obtain ⟨hsrc, hdst⟩ := not_or.1 hrange
    exact execHexEnc_overlap (Nat.not_lt.1 hsrc) (Nat.not_lt.1 hdst) (overlap_double_right.2 h)
  | hexDec =>
    obtain ⟨hsrc, hdst⟩ := not_or.1 hrange
    exact execHexDec_overlap (Nat.not_lt.1 hsrc) (Nat.not_lt.1 hdst) (overlap_double_left.2 h)

theorem finish_next_errcode {α : Type} {r : Except Fault α} {k : α → State} {t : State}
    (hk : ∀ x, (k x).errcode = 0) (h : finish r k = .next t) : t.errcode = 0 := by
  obtain ⟨x, -, rfl⟩ := finish_eq_next.1 h
  exact hk x

theorem apart_hexEnc (hrange : ¬RangeFails s .hexEnc) (hover : ¬OverlapFails s .hexEnc) :
    s.Apart s.lenBytes (2 * s.lenBytes) := by
  obtain ⟨hsrc, hdst⟩ := not_or.1 hrange
  exact ⟨Nat.not_lt.1 hsrc, Nat.not_lt.1 hdst, Bool.eq_false_iff.2 (mt overlap_double_right.1 hover)⟩

theorem apart_hexDec (hrange : ¬RangeFails s .hexDec) (hover : ¬OverlapFails s .hexDec) :
    s.Apart (2 * s.lenBytes) s.lenBytes := by
  obtain ⟨hsrc, hdst⟩ := not_or.1 hrange
  exact ⟨Nat.not_lt.1 hsrc, Nat.not_lt.1 hdst, Bool.eq_false_iff.2 (mt overlap_double_left.1 hover)⟩

/-- With every check passed, the one error left is ILLEGAL_HEX, from HEX.DEC's scan. -/
theorem exec_next_of_checks_pass {t : State} (hlen : ¬LengthFails s i) (hrange : ¬RangeFails s i)
    (hover : ¬OverlapFails s i) (h : exec i s = .next t) :
    t.errcode = 0 ∨
      (t = s.raise .illegalHex ∧ i = .hexDec ∧ hexValues (2 * s.lenBytes) s.srcAddr s.buf = .ok none) := by
  cases i with
  | crcClr | crcB =>
    cases h
    exact .inl (succeed_errcode _ _)
  | crcBuf =>
    exact .inl (finish_next_errcode (fun _ => succeed_errcode _ _)
      ((execCrcBuf_inside (Nat.not_lt.1 hrange)).symm.trans h))
  | stuff =>
    exact .inl (finish_next_errcode (fun _ => succeed_errcode _ _)
      ((execStuff_inside (Nat.not_lt.1 hlen) (Nat.not_lt.1 hrange)).symm.trans h))
  | unstuff =>
    obtain ⟨hzero, -⟩ | ⟨-, hout, -⟩ | ⟨-, -, ⟨e, he, -⟩ | ⟨f, he, -⟩⟩ := execUnstuff_cases s
    · exact absurd hzero hlen
    · exact absurd hout hrange
    · cases he.symm.trans h
      exact .inl (succeed_errcode _ _)
    · cases he.symm.trans h
  | unstuffC =>
    exact .inl (finish_next_errcode (fun _ => succeed_errcode _ _)
      ((execUnstuffC_inside (Nat.not_lt.1 hrange)).symm.trans h))
  | hexEnc =>
    exact .inl (finish_next_errcode (fun _ => succeed_errcode _ _)
      ((execHexEnc_apart (apart_hexEnc hrange hover)).symm.trans h))
  | hexDec =>
    obtain ⟨o, ho, rfl⟩ := finish_eq_next.1 ((execHexDec_apart (apart_hexDec hrange hover)).symm.trans h)
    cases o with
    | none => exact .inr ⟨rfl, rfl, ho⟩
    | some vs => exact .inl (succeed_errcode _ _)

end

/-- Settles O46: an illegal word runs no command, the checks of a legal one stand in R133's order, and ILLEGAL_HEX comes
from the first character HEX.DEC's scan finds invalid. -/
theorem firstErrorInPriorityIsReported : Obligations.FirstErrorInPriorityIsReported := by
  refine ⟨fun s w rest e hin hd => ?_, fun s i => ⟨exec_of_lengthFails, exec_of_rangeFails,
    fun _ => exec_of_overlapFails, fun hlen hrange hover t h => ?_⟩⟩
  · rw [step_cmd hin, runCommand_error hd, raise_illegalCmd_eq]
  · obtain hok | ⟨rfl, rfl, hscan⟩ := exec_next_of_checks_pass hlen hrange hover h
    · exact .inl hok
    · exact .inr ⟨raise_errcode s .illegalHex, rfl, hexValues_none hscan⟩

end Sys2Proof.Machine
end

section
/-! SUPPORT. What a step cannot do and what a run comes to: no refusal, no fault but the two kinds of R157, one pending
input taken per step, and the reset input (R150). -/

namespace Sys2Proof.Machine

/-! ### No refusal -/

/-- The inversion lemmas of the eight commands, read as one: each end is a next state or a fault. -/
theorem exec_ne_refused {i : Instr} {s : State} {x : Refusal} : exec i s ≠ .refused x := by
  intro h
  cases i with
  | crcClr => cases h
  | crcB b => cases h
  | crcBuf => obtain ⟨-, he⟩ | ⟨-, ⟨a, he⟩ | ⟨f, he, -⟩⟩ := execCrcBuf_cases s <;> cases he.symm.trans h
  | stuff =>
    obtain ⟨-, he⟩ | ⟨-, -, he⟩ | ⟨-, -, ⟨m, he, -⟩ | ⟨f, he, -⟩⟩ := execStuff_cases s <;> cases he.symm.trans h
  | unstuff =>
    obtain ⟨-, he⟩ | ⟨-, -, he⟩ | ⟨-, -, ⟨e, he, -⟩ | ⟨f, he, -⟩⟩ := execUnstuff_cases s <;> cases he.symm.trans h
  | unstuffC => obtain ⟨-, he⟩ | ⟨-, ⟨e, he, -⟩ | ⟨f, he, -⟩⟩ := execUnstuffC_cases s <;> cases he.symm.trans h
  | hexEnc =>
    obtain ⟨-, he⟩ | ⟨-, -, ⟨-, he⟩ | ⟨-, ⟨m, he, -⟩ | ⟨f, he, -⟩⟩⟩ := execHexEnc_cases s <;> cases he.symm.trans h
  | hexDec =>
    obtain ⟨-, he⟩ | ⟨-, -, ⟨-, he⟩ | ⟨-, ⟨he, -⟩ | ⟨vs, he, -⟩ | ⟨f, he, -⟩⟩⟩ := execHexDec_cases s <;>
      cases he.symm.trans h

theorem runCommand_ne_refused {w : Word} {s : State} {x : Refusal} : runCommand w s ≠ .refused x := by
  intro h
  cases hd : decode w with
  | ok i => exact exec_ne_refused ((runCommand_ok hd s).symm.trans h)
  | error e => cases (runCommand_error hd s).symm.trans h

theorem hostWrite_ne_refused {r : RegName} {v : Word} {s : State} {x : Refusal} : hostWrite r v s ≠ .refused x := by
  intro h
  by_cases hr : r = .cmd
  · subst hr
    exact runCommand_ne_refused (s := s.writeReg .cmd v) h
  · cases (hostWrite_of_ne_cmd hr v s).symm.trans h

theorem hostAccess_ne_refused {op : HostOp} {s : State} {x : Refusal} : hostAccess op s ≠ .refused x := by
  intro h
  cases op with
  | regRead off =>
    simp only [hostAccess] at h
    split at h <;> cases h
  | regWrite off v =>
    simp only [hostAccess] at h
    split at h
    · cases h
    · exact hostWrite_ne_refused h
  | bufRead a =>
    simp only [hostAccess] at h
    split at h
    · exact finish_ne_refused h
    · cases h
  | bufWrite a v =>
    simp only [hostAccess] at h
    split at h <;> cases h

theorem step_ne_refused {s : State} {x : Refusal} : step s ≠ .refused x := by
  intro h
  cases hi : s.inputs with
  | nil => cases (step_idle hi).symm.trans h
  | cons i rest =>
    have htake := (step_cons hi).symm.trans h
    cases i with
    | access op => exact hostAccess_ne_refused htake
    | reset => cases htake

/-! ### The faults of a step -/

/-- The faults an input can end in, as `InputEnd` has the states: an access outside the registers (R41) or outside BUF
(R42), or a read, by the host or by a command, of a byte of BUF that nothing has written (R35). -/
inductive InputFault (s : State) : Input → Fault → Prop where
  | readUnmapped {off : Nat} : regAt off = none → InputFault s (.access (.regRead off)) (.registerOffset off)
  | writeUnmapped {off : Nat} (v : Word) :
      regAt off = none → InputFault s (.access (.regWrite off v)) (.registerOffset off)
  | readOutside {a : Nat} : s.bufSize ≤ a → InputFault s (.access (.bufRead a)) (.bufferAddress a)
  | writeOutside {a : Nat} (v : Byte) : s.bufSize ≤ a → InputFault s (.access (.bufWrite a v)) (.bufferAddress a)
  | unwritten {i : Input} {a : Nat} : a < s.bufSize → memRead s.buf a = none → InputFault s i (.unwrittenRead a)

theorem hostAccess_fault {op : HostOp} {s : State} {f : Fault} (h : hostAccess op s = .fault f) :
    InputFault s (.access op) f := by
  cases op with
  | regRead off =>
    simp only [hostAccess] at h
    split at h <;> cases h
    exact .readUnmapped ‹_›
  | regWrite off v =>
    simp only [hostAccess] at h
    split at h
    · cases h
      exact .writeUnmapped v ‹_›
    · obtain ⟨a, rfl, ha, hn⟩ := hostWrite_fault h
      exact .unwritten ha hn
  | bufRead a =>
    simp only [hostAccess] at h
    split at h
    · obtain ⟨hn, rfl⟩ := load_eq_error.1 (finish_eq_fault.1 h)
      exact .unwritten ‹_› hn
    · cases h
      exact .readOutside (Nat.not_lt.1 ‹_›)
  | bufWrite a v =>
    simp only [hostAccess] at h
    split at h <;> cases h
    exact .writeOutside v (Nat.not_lt.1 ‹_›)

theorem step_fault {s : State} {f : Fault} (h : step s = .fault f) :
    ∃ i rest, s.inputs = i :: rest ∧ InputFault { s with inputs := rest } i f := by
  cases hi : s.inputs with
  | nil => cases (step_idle hi).symm.trans h
  | cons i rest =>
    have htake := (step_cons hi).symm.trans h
    cases i with
    | access op => exact ⟨_, _, rfl, hostAccess_fault htake⟩
    | reset => cases htake

/-- R41: the offsets of no register, as the statements write them. -/
theorem not_mapped_of_regAt_eq_none {off : Nat} (h : regAt off = none) : ¬(off % 4 = 0 ∧ off < 0x20) := by
  have := regAt_eq_none_iff.1 h
  omega

/-- Settles O5: `step_ne_refused`, and the faults of the input that a step takes. -/
theorem stepFaultsOnlyAsTheRulesSay : Obligations.StepFaultsOnlyAsTheRulesSay := by
  refine fun s => ⟨fun _ => step_ne_refused, fun f hf => ?_⟩
  obtain ⟨i, rest, hi, hfault⟩ := step_fault hf
  cases hfault with
  | readUnmapped hoff => exact .inl ⟨_, 0, rest, .inl hi, not_mapped_of_regAt_eq_none hoff, rfl⟩
  | writeUnmapped v hoff => exact .inl ⟨_, v, rest, .inr hi, not_mapped_of_regAt_eq_none hoff, rfl⟩
  | readOutside ha => exact .inr (.inl ⟨_, 0, rest, .inl hi, ha, rfl⟩)
  | writeOutside v ha => exact .inr (.inl ⟨_, v, rest, .inr hi, ha, rfl⟩)
  | unwritten ha hn => exact .inr (.inr ⟨_, rfl, ha, hn⟩)

/-! ### Runs -/

theorem InputEnd.inputs_eq {s t : State} (h : InputEnd s t) : t.inputs = s.inputs := by
  cases h with
  | replied => rfl
  | wrote r v => exact writeReg_inputs s r v
  | stored => rfl
  | executed he =>
    obtain ⟨-, -, -, -, -, hinputs, -⟩ := he.frame
    exact hinputs
  | illegal => rfl
  | reset => rfl

theorem step_inputs {s t : State} (h : step s = .next t) : t.inputs = s.inputs.tail := by
  cases hi : s.inputs with
  | nil =>
    cases (step_idle hi).symm.trans h
    exact hi
  | cons i rest => exact (takeInput_next ((step_cons hi).symm.trans h)).inputs_eq

/-- A run goes on only from a next state. -/
theorem exists_step_of_run_succ {k : Nat} {s t : State} (h : Host.Core.run core (k + 1) s = .next t) :
    ∃ u, step s = .next u ∧ Host.Core.run core k u = .next t := by
  cases hs : step s with
  | next u => exact ⟨u, rfl, (run_succ hs k).symm.trans h⟩
  | fault f =>
    have hcore : core.step s = .fault f := hs
    simp [Host.Core.run, hcore] at h
  | refused x => exact absurd hs step_ne_refused

theorem run_inputs {k : Nat} {s t : State} (h : Host.Core.run core k s = .next t) :
    t.inputs = s.inputs.drop k := by
  induction k generalizing s with
  | zero =>
    cases h
    rfl
  | succ k ih =>
    obtain ⟨u, hu, hrun⟩ := exists_step_of_run_succ h
    rw [ih hrun, step_inputs hu, List.drop_tail]

/-- Settles O7: each step of the run takes one pending input, and the run has as many steps as there are inputs. -/
theorem runEndsWithNothingPending : Obligations.RunEndsWithNothingPending :=
  fun _ _ h => (run_inputs h).trans List.drop_length

/-! ### The reset input -/

theorem readReg_assertReset (s : State) {r : RegName} (hr : r ≠ .param) :
    s.assertReset.readReg r = 0x00000000 := by
  have hreset : s.assertReset.readReg r = State.reset.readReg r := by
    cases r with
    | param => exact absurd rfl hr
    | _ => rfl
  rw [hreset, readReg_reset, if_neg hr]

/-- Settles O2: the state `assertReset` leaves, register by register. -/
theorem resetInputRestoresResetState : Obligations.ResetInputRestoresResetState :=
  fun s rest h => ⟨State.assertReset { s with inputs := rest }, step_cons h, fun _ => readReg_assertReset _,
    readReg_param_congr rfl, rfl, memRead_nil, rfl, rfl⟩

end Sys2Proof.Machine
end
